-- ==== Sys2Proof/Word.lean ====
section
/-! DEFINITION. The register value. -/

namespace Sys2Proof

/-- A register value, operand or result: an unsigned 16-bit value, bit 0 least significant
(00_scope.md R8, R11, R12; 10_state.md R21). -/
abbrev Word := BitVec 16

end Sys2Proof
end

