-- ==== Sys2Proof/Config.lean ====
section
/-! DEFINITION. The block's fixed parameters. No behaviour of the block is left to an implementation but the places of
the four fields in a packed word, and the spec fixes those too (30_encoding.md R52). There is no free value:
93_implementation_defined.md lists no behaviour of the block treated as "any value". -/

namespace Sys2Proof.Config

/-- The largest value of a 4-bit field, and so the largest register index (00_scope.md R8). -/
abbrev maxField : Nat := 15

/-- Lowest bit of the opcode in a packed word: `word[15:12]` (30_encoding.md R52, decision D3). -/
abbrev opLow : Nat := 12

/-- Lowest bit of field A in a packed word: `word[11:8]` (30_encoding.md R52, decision D3). -/
abbrev aLow : Nat := 8

/-- Lowest bit of field B in a packed word: `word[7:4]` (30_encoding.md R52, decision D3). -/
abbrev bLow : Nat := 4

/-- Lowest bit of field C in a packed word: `word[3:0]` (30_encoding.md R52, decision D3). -/
abbrev cLow : Nat := 0

end Sys2Proof.Config
end

