-- ==== Sys2Proof/Syntax.lean ====
section
/-! DEFINITION. The instructions: one constructor for each of the 16 rows of spec/opcode_table.json, the nine classes
of the opcode decoder, the operand forms, and the four-field tuple of a packed word. -/

namespace Sys2Proof

/-- The instructions, one constructor per row of the opcode map (30_encoding.md R56), each with its fields A, B and C
in tuple order (R50). The eight INVALID rows are eight constructors, named by their opcode. A field is an integer, as the
source takes "four integers" and tests "outside [0,15]" (40_execute.md R71; 90_conflicts.md C4); `Instr.WellFormed` says it
is in range. -/
inductive Instr where
  /-- opcode 0000 (R90) -/
  | add (a b c : Int)
  /-- opcode 0001 (R91) -/
  | sub (a b c : Int)
  /-- opcode 0010 (R92) -/
  | mul (a b c : Int)
  /-- opcode 0011 (R100) -/
  | and (a b c : Int)
  /-- opcode 0100 (R101) -/
  | or (a b c : Int)
  /-- opcode 0101 (R102) -/
  | xor (a b c : Int)
  /-- opcode 0110 (R103) -/
  | not (a b c : Int)
  /-- opcode 0111, INVALID (R120) -/
  | invalid0111 (a b c : Int)
  /-- opcode 1000, INVALID (R120) -/
  | invalid1000 (a b c : Int)
  /-- opcode 1001, INVALID (R120) -/
  | invalid1001 (a b c : Int)
  /-- opcode 1010, INVALID (R120) -/
  | invalid1010 (a b c : Int)
  /-- opcode 1011, INVALID (R120) -/
  | invalid1011 (a b c : Int)
  /-- opcode 1100, INVALID (R120) -/
  | invalid1100 (a b c : Int)
  /-- opcode 1101, INVALID (R120) -/
  | invalid1101 (a b c : Int)
  /-- opcode 1110, INVALID (R120) -/
  | invalid1110 (a b c : Int)
  /-- opcode 1111 (R110) -/
  | loadImmediate (a b c : Int)
  deriving DecidableEq, Repr

/-- The nine classes the opcode decoder tells apart (30_encoding.md R57). -/
inductive OpClass where
  | add | sub | mul | and | or | xor | not | loadImmediate | invalid
  deriving DecidableEq, Repr

/-- The operand forms (30_encoding.md R54). -/
inductive Form where
  /-- A and B are sources, C is the destination -/
  | rrr
  /-- A is the source, C the destination, B is read and ignored -/
  | rr
  /-- A is the destination, B the immediate, C is ignored -/
  | ri
  /-- no field affects the result or the state -/
  | none
  deriving DecidableEq, Repr

/-- The four 4-bit fields of a packed word, in tuple order (30_encoding.md R50, R52). -/
structure FieldTuple where
  op : BitVec 4
  a : BitVec 4
  b : BitVec 4
  c : BitVec 4
  deriving DecidableEq, Repr

/-- Why a tuple of integers decodes to no instruction. -/
inductive DecodeError where
  /-- a field is outside [0,15]; it does not say which (40_execute.md R71, 60_exceptions.md R136) -/
  | fieldOutsideRange
  deriving DecidableEq, Repr

/-- The field that names register `k`, or holds the 4-bit value `k`. -/
abbrev fld (k : Fin 16) : Int := (k.val : Int)

end Sys2Proof
end

