-- ==== Sys2Proof/WellFormed.lean ====
section
/-! DEFINITION. When an instruction term is one the 4-bit fields can hold: each of A, B and C is in [0,15], the ignored
ones included (40_execute.md R71, 43_load_immediate.md R110). The opcode of a constructor is in range by its form. -/

namespace Sys2Proof

/-- The value a 4-bit field can hold: "integer in [0,15]" (00_scope.md R17). -/
abbrev FieldInRange (v : Int) : Prop := 0 ≤ v ∧ v ≤ 15

/-- Field A of an instruction. -/
def Instr.fieldA : Instr → Int
  | .add a _ _ | .sub a _ _ | .mul a _ _ | .and a _ _ | .or a _ _ | .xor a _ _ | .not a _ _
  | .invalid0111 a _ _ | .invalid1000 a _ _ | .invalid1001 a _ _ | .invalid1010 a _ _
  | .invalid1011 a _ _ | .invalid1100 a _ _ | .invalid1101 a _ _ | .invalid1110 a _ _
  | .loadImmediate a _ _ => a

/-- Field B of an instruction. -/
def Instr.fieldB : Instr → Int
  | .add _ b _ | .sub _ b _ | .mul _ b _ | .and _ b _ | .or _ b _ | .xor _ b _ | .not _ b _
  | .invalid0111 _ b _ | .invalid1000 _ b _ | .invalid1001 _ b _ | .invalid1010 _ b _
  | .invalid1011 _ b _ | .invalid1100 _ b _ | .invalid1101 _ b _ | .invalid1110 _ b _
  | .loadImmediate _ b _ => b

/-- Field C of an instruction. -/
def Instr.fieldC : Instr → Int
  | .add _ _ c | .sub _ _ c | .mul _ _ c | .and _ _ c | .or _ _ c | .xor _ _ c | .not _ _ c
  | .invalid0111 _ _ c | .invalid1000 _ _ c | .invalid1001 _ _ c | .invalid1010 _ _ c
  | .invalid1011 _ _ c | .invalid1100 _ _ c | .invalid1101 _ _ c | .invalid1110 _ _ c
  | .loadImmediate _ _ c => c

/-- Each field of the instruction is in [0,15], whether the instruction uses it or not. -/
abbrev Instr.WellFormed (i : Instr) : Prop :=
  FieldInRange i.fieldA ∧ FieldInRange i.fieldB ∧ FieldInRange i.fieldC

end Sys2Proof
end

