-- ==== Sys2Proof/Decode.lean ====
section
/-! DEFINITION. The opcode decoder, the packed word and its fields, decoding of a tuple and of a word, and the encoder. -/

namespace Sys2Proof

/-- The opcode decoder: "a closed tagged-variant/enum match over the 8 recognized opcodes plus a catch-all INVALID arm",
a function of the opcode alone (30_encoding.md R56, R57, R58). -/
def decodeClass (op : BitVec 4) : OpClass :=
  match op.toNat with
  | 0 => .add
  | 1 => .sub
  | 2 => .mul
  | 3 => .and
  | 4 => .or
  | 5 => .xor
  | 6 => .not
  | 15 => .loadImmediate
  | _ => .invalid

/-- The decoder's class output for `cls`, asserted when the opcode is of that class (30_encoding.md R57, 10_state.md R38). -/
def classOutput (op : BitVec 4) (cls : OpClass) : Bool :=
  decide (decodeClass op = cls)

/-- The instruction with opcode `op` and fields A, B, C: the row of the opcode map (30_encoding.md R56). Opcode 1111 is the
one left by the fifteen arms before it. -/
def instrOfOpcode (op : BitVec 4) (a b c : Int) : Instr :=
  match op.toNat with
  | 0 => .add a b c
  | 1 => .sub a b c
  | 2 => .mul a b c
  | 3 => .and a b c
  | 4 => .or a b c
  | 5 => .xor a b c
  | 6 => .not a b c
  | 7 => .invalid0111 a b c
  | 8 => .invalid1000 a b c
  | 9 => .invalid1001 a b c
  | 10 => .invalid1010 a b c
  | 11 => .invalid1011 a b c
  | 12 => .invalid1100 a b c
  | 13 => .invalid1101 a b c
  | 14 => .invalid1110 a b c
  | _ => .loadImmediate a b c

/-- Validation of the operand fields: A, B and C are each in [0,15], used or not (40_execute.md R71). -/
def validOperands (a b c : Int) : Bool :=
  decide (0 ≤ a ∧ a ≤ Config.maxField ∧ 0 ≤ b ∧ b ≤ Config.maxField ∧ 0 ≤ c ∧ c ≤ Config.maxField)

/-- Validation of a presented tuple: "Validate opcode, A, B, C are each in [0,15]" (40_execute.md R71). -/
def validTuple (op a b c : Int) : Bool :=
  decide (0 ≤ op ∧ op ≤ Config.maxField) && validOperands a b c

/-- Decoding of a presented tuple of four integers. It rejects by name a field outside [0,15] and never wraps it
(40_execute.md R71); every other tuple is an instruction (30_encoding.md R57, R59). -/
def decodeTuple (op a b c : Int) : Except DecodeError Instr :=
  if validTuple op a b c then .ok (instrOfOpcode (BitVec.ofNat 4 op.toNat) a b c)
  else .error .fieldOutsideRange

/-- The four fields of a packed word (30_encoding.md R52, R53). -/
def unpackWord (w : Word) : FieldTuple where
  op := w.extractLsb' Config.opLow 4
  a := w.extractLsb' Config.aLow 4
  b := w.extractLsb' Config.bLow 4
  c := w.extractLsb' Config.cLow 4

/-- Decoding of a packed word, total on all 65536 words (30_encoding.md R53). -/
def decodeWord (w : Word) : Instr :=
  let t := unpackWord w
  instrOfOpcode t.op t.a.toNat t.b.toNat t.c.toNat

/-- The opcode of an instruction (30_encoding.md R56). -/
def Instr.opcode : Instr → Nat
  | .add _ _ _ => 0
  | .sub _ _ _ => 1
  | .mul _ _ _ => 2
  | .and _ _ _ => 3
  | .or _ _ _ => 4
  | .xor _ _ _ => 5
  | .not _ _ _ => 6
  | .invalid0111 _ _ _ => 7
  | .invalid1000 _ _ _ => 8
  | .invalid1001 _ _ _ => 9
  | .invalid1010 _ _ _ => 10
  | .invalid1011 _ _ _ => 11
  | .invalid1100 _ _ _ => 12
  | .invalid1101 _ _ _ => 13
  | .invalid1110 _ _ _ => 14
  | .loadImmediate _ _ _ => 15

/-- The class of an instruction: the decoder's answer on its opcode (30_encoding.md R57). -/
def Instr.cls (i : Instr) : OpClass :=
  decodeClass (BitVec.ofNat 4 i.opcode)

/-- The operand form of a class (30_encoding.md R54). -/
def OpClass.form : OpClass → Form
  | .add | .sub | .mul | .and | .or | .xor => .rrr
  | .not => .rr
  | .loadImmediate => .ri
  | .invalid => .none

/-- The packed word of four fields: `{opcode, A, B, C}`, the opcode most significant (30_encoding.md R52, decision D3). -/
def packWord (t : FieldTuple) : Word :=
  t.op ++ t.a ++ t.b ++ t.c

/-- The packed word of an instruction. Only a well-formed instruction has one; a field outside [0,15] fits no word. -/
def encode (i : Instr) : Word :=
  packWord
    { op := BitVec.ofNat 4 i.opcode
      a := BitVec.ofNat 4 i.fieldA.toNat
      b := BitVec.ofNat 4 i.fieldB.toNat
      c := BitVec.ofNat 4 i.fieldC.toNat }

/-- The instruction of an opcode-table word of `nbits` bits, the bits above them zero. An instruction is one 16-bit
word, so a value that needs more bits is no instruction (30_encoding.md R50, R61; DESIGN CHOICE, log entry 6). -/
def decodeTableWord (nbits w : Nat) : Option Instr :=
  let v := w % 2 ^ nbits
  if v < 2 ^ 16 then some (decodeWord (BitVec.ofNat 16 v)) else none

end Sys2Proof
end

