-- ==== Sys2Proof/Machine/State.lean ====
section
/-! DEFINITION. The state as plain data: the 16 registers the spec gives the block, and the model's two fields for the
boundary with the host: the operations presented but not yet served, and the outputs of the last step. -/

namespace Sys2Proof.Machine

/-- The register file: 16 cells x[0] to x[15], each one 16-bit value, none hard-wired, no aliases (10_state.md R20). -/
abbrev RegFile := Vector Word 16

/-- The three error kinds the block reports, and no other (60_exceptions.md R130). -/
inductive ErrorKind where
  /-- an execute with a field outside [0,15] (R132) -/
  | invalidInstruction
  /-- a bulk replace of other than 16 values (R133) -/
  | invalidRegisterSet
  /-- a register port given an index outside [0,15]; no operation reaches it (R134) -/
  | outOfRange
  deriving DecidableEq, Repr

/-- The status output (10_state.md R38, 60_exceptions.md R130). -/
inductive Status where
  | ok | invalidInstruction | invalidRegisterSet | outOfRange
  deriving DecidableEq, Repr

/-- What the host presents for one step: one of the block's three operations (10_state.md R26), the `rst` input
(70_reset_and_hazards.md R150), or nothing (`cmd = NONE`, 10_state.md R38). The fields of an execute are unbounded
integers and the elements of a bulk replace unbounded naturals, so the source's checks stay (10_state.md R39, R27;
DESIGN CHOICE, log entries 4, 5 and 7). -/
inductive Command where
  /-- no operation in this step -/
  | idle
  /-- execute one instruction, given as the tuple (opcode, A, B, C) -/
  | execute (op a b c : Int)
  /-- replace all registers -/
  | replaceAll (values : List Nat)
  /-- return the 16 register values -/
  | snapshot
  /-- the reset input -/
  | reset
  deriving DecidableEq, Repr

/-- What the block returns to the host in one step. Each carries values, never a handle to the state (10_state.md R28). -/
inductive Response where
  /-- the step performed no operation, or none has been performed since reset (10_state.md R33, R38) -/
  | none
  /-- a served execute: its result Z and the registers after its write (40_execute.md R81, 10_state.md R28) -/
  | executed (z : Word) (snap : RegFile)
  /-- a served bulk replace, which returns no result value (10_state.md R27) -/
  | replaced
  /-- a served snapshot: the 16 values in index order (10_state.md R28) -/
  | snapshot (values : RegFile)
  /-- a rejected operation: its error kind and nothing more (60_exceptions.md R131) -/
  | rejected (kind : ErrorKind)
  deriving DecidableEq, Repr

/-- The state. `regs` is the block's whole architectural state (10_state.md R34). `pending` and `response` are the
model's own: the host's side of the interface, held here because a step takes and gives states only. -/
structure State where
  /-- the register file x[0] to x[15] -/
  regs : RegFile
  /-- the operations the host has yet to have served, in the one order in which they take effect (20_memory.md R47;
  DESIGN CHOICE, log entries 1 and 10) -/
  pending : List Command
  /-- the outputs of the last step; each step overwrites it and none reads it (10_state.md R33; DESIGN CHOICE, log
  entry 2) -/
  response : Response
  deriving DecidableEq, Repr

/-- The faults. -/
inductive Fault where
  /-- A register port was given an index outside [0,15]. Raised by the datapath when a port answers OutOfRange
  (60_exceptions.md R134, decision D22). Validation comes first, so no step reaches it. Safe. -/
  | outOfRange
  deriving DecidableEq, Repr

/-- The refusals. -/
inductive Refusal where
  /-- The instruction has no meaning in the model yet. Raised by `exec` alone; no arm raises it now. Safe. -/
  | notModelled (mnemonic : String)
  deriving DecidableEq, Repr

/-- The state after reset: every register 0 (10_state.md R35, 70_reset_and_hazards.md R150), no operation presented
and no output produced. -/
def State.reset : State where
  regs := Vector.replicate 16 0
  pending := []
  response := .none

end Sys2Proof.Machine
end

