-- ==== Sys2Proof/Machine/Operands.lean ====
section
/-! DEFINITION. The register file's ports, its bulk load and its snapshot, the 16-bit mask, the immediate, and the
write-enable logic. -/

namespace Sys2Proof.Machine

/-- `v & 0xFFFF`: an exact integer reduced modulo 2^16 (00_scope.md R12, 40_execute.md R75). -/
def mask16 (v : Int) : Word :=
  BitVec.ofInt 16 v

/-- The register file's read contract: the value at an index in [0,15], and OutOfRange for any other index
(10_state.md R23). A read changes nothing (20_memory.md R45). -/
def RegFile.read (f : RegFile) (i : Int) : Except ErrorKind Word :=
  if h : 0 ≤ i ∧ i ≤ 15 then .ok (f[i.toNat]'(by omega)) else .error .outOfRange

/-- The register file's write contract: stores `value & 0xFFFF` at an index in [0,15], and OutOfRange with nothing
written for any other index (10_state.md R25). A negative value is masked in two's complement (DEDUCED, log entry 8). -/
def RegFile.write (f : RegFile) (i : Int) (v : Int) : Except ErrorKind RegFile :=
  if h : 0 ≤ i ∧ i ≤ 15 then .ok (f.set i.toNat (mask16 v) (by omega)) else .error .outOfRange

/-- Bulk replace: 16 values are masked to 16 bits and loaded together; any other number of values is
InvalidRegisterSet (10_state.md R27). -/
def RegFile.ofValues (values : List Nat) : Except ErrorKind RegFile :=
  if h : values.length = 16 then
    .ok ⟨(values.map fun (v : Nat) => mask16 (v : Int)).toArray, by simp [h]⟩
  else .error .invalidRegisterSet

/-- The 16 current values in index order (10_state.md R28). -/
def RegFile.values (f : RegFile) : RegFile :=
  f

/-- The immediate: the 4-bit field zero-extended to 16 bits, neither sign-extended, scaled nor shifted
(30_encoding.md R55). -/
def immediate (b : Int) : Word :=
  BitVec.ofNat 16 b.toNat

/-- The write enable: every class but INVALID writes (40_execute.md R77). -/
def writeEnable (cls : OpClass) : Bool :=
  decide (cls ≠ .invalid)

/-- The write address: field A under LOAD_IMMEDIATE, field C otherwise (40_execute.md R78). With the write enable off
it selects nothing. -/
def writeAddress (cls : OpClass) (a c : Int) : Int :=
  match cls with
  | .loadImmediate => a
  | _ => c

end Sys2Proof.Machine
end

