-- ==== Sys2Proof/Machine/Alu.lean ====
section
/-! DEFINITION. The ALU's seven computations and the result multiplexer. Arithmetic is exact on integers and masked
once at the end, so no width is chosen for the intermediate value (40_execute.md R74, R75). -/

namespace Sys2Proof.Machine

/-- `(X + Y) mod 2^16` (41_arithmetic.md R90). -/
def aluAdd (x y : Word) : Word :=
  mask16 ((x.toNat : Int) + (y.toNat : Int))

/-- `(X - Y) mod 2^16`, the exact difference possibly negative (41_arithmetic.md R91). -/
def aluSub (x y : Word) : Word :=
  mask16 ((x.toNat : Int) - (y.toNat : Int))

/-- `(X * Y) mod 2^16` (41_arithmetic.md R92). -/
def aluMul (x y : Word) : Word :=
  mask16 ((x.toNat : Int) * (y.toNat : Int))

/-- `X & Y` (42_logical.md R100). -/
def aluAnd (x y : Word) : Word :=
  x &&& y

/-- `X | Y` (42_logical.md R101). -/
def aluOr (x y : Word) : Word :=
  x ||| y

/-- `X ^ Y` (42_logical.md R102). -/
def aluXor (x y : Word) : Word :=
  x ^^^ y

/-- `(~X) & 0xFFFF`; Y is not used (42_logical.md R103). -/
def aluNot (x : Word) : Word :=
  ~~~x

/-- The result multiplexer: the ALU output for the seven register classes, the immediate in field B for
LOAD_IMMEDIATE, 0 for INVALID (40_execute.md R76). -/
def resultMux (cls : OpClass) (x y : Word) (b : Int) : Word :=
  match cls with
  | .add => aluAdd x y
  | .sub => aluSub x y
  | .mul => aluMul x y
  | .and => aluAnd x y
  | .or => aluOr x y
  | .xor => aluXor x y
  | .not => aluNot x
  | .loadImmediate => immediate b
  | .invalid => 0

end Sys2Proof.Machine
end

