-- ==== Sys2Proof/Machine/Flags.lean ====
section
/-! DEFINITION. The block has no flags and no condition codes: a carry, borrow or overflow leaves no trace in the state
(10_state.md R30). What it reports beside a result is the status output, which is here. -/

namespace Sys2Proof.Machine

/-- The status that reports an error kind (60_exceptions.md R130, R131). -/
def ErrorKind.status : ErrorKind → Status
  | .invalidInstruction => .invalidInstruction
  | .invalidRegisterSet => .invalidRegisterSet
  | .outOfRange => .outOfRange

/-- The numeric status codes (60_exceptions.md R130, decision D11). -/
def Status.code : Status → Nat
  | .ok => 0
  | .invalidInstruction => 1
  | .invalidRegisterSet => 2
  | .outOfRange => 3

/-- The status output of the step that gave this response, where the step performed an operation. -/
def Response.status : Response → Option Status
  | .none => Option.none
  | .executed _ _ => some .ok
  | .replaced => some .ok
  | .snapshot _ => some .ok
  | .rejected k => some k.status

/-- The result Z of the step that gave this response: only a served execute has one (10_state.md R33). -/
def Response.result : Response → Option Word
  | .executed z _ => some z
  | .none => Option.none
  | .replaced => Option.none
  | .snapshot _ => Option.none
  | .rejected _ => Option.none

/-- The register values a response carries to the host (10_state.md R28). -/
def Response.snap : Response → Option RegFile
  | .executed _ f => some f
  | .snapshot f => some f
  | .none => Option.none
  | .replaced => Option.none
  | .rejected _ => Option.none

end Sys2Proof.Machine
end

