-- ==== Sys2Proof/Machine/Ops.lean ====
section
/-! DEFINITION. The shared operations over the state: the rejection of an operation, and the datapath of an execute. -/

namespace Sys2Proof.Machine

/-- Rejection, the block's one failure behaviour: the kind is reported, no result is returned, and the registers keep
their values (60_exceptions.md R131). There is no trap entry beside it and no return from one (R137, R138). -/
def State.reject (s : State) (kind : ErrorKind) : State :=
  { s with response := .rejected kind }

/-- The internal nets of one execute (10_state.md R38). -/
structure Nets where
  /-- read port A's data, X -/
  rdataA : Word
  /-- read port B's data, Y -/
  rdataB : Word
  /-- the result multiplexer's output -/
  z : Word
  /-- the write enable -/
  we : Bool
  /-- the write address -/
  waddr : Int
  /-- the write data -/
  wdata : Word
  deriving DecidableEq, Repr

/-- The nets of an execute: both ports read whatever the class (10_state.md R24, 40_execute.md R72), then the
multiplexer and the write-enable logic (R76 to R79). All of it is computed from the registers before the write. -/
def datapathNets (cls : OpClass) (a b c : Int) (f : RegFile) : Except ErrorKind Nets :=
  match f.read a with
  | .error e => .error e
  | .ok x =>
    match f.read b with
    | .error e => .error e
    | .ok y =>
      let z := resultMux cls x y b
      .ok
        { rdataA := x
          rdataB := y
          z := z
          we := writeEnable cls
          waddr := writeAddress cls a c
          wdata := z }

/-- The write at the end of the step: `if we then x[waddr] <- Z` (40_execute.md R79). -/
def commitNets (n : Nets) (f : RegFile) : Except ErrorKind RegFile :=
  if n.we then f.write n.waddr (n.wdata.toNat : Int) else .ok f

/-- The execute operation of one class, steps R71 to R81 of 40_execute.md: validation first, a rejected execute reading
nothing; then the reads, the result, at most one write, and the result returned with the registers after the write
(10_state.md R28). A port that answers OutOfRange would fault (60_exceptions.md R134); validation keeps that away
(DEDUCED, log entries 5 and 8). -/
def runDatapath (cls : OpClass) (a b c : Int) (s : State) : Host.Outcome State Fault Refusal :=
  if validOperands a b c then
    match datapathNets cls a b c s.regs with
    | .error _ => .fault .outOfRange
    | .ok n =>
      match commitNets n s.regs with
      | .error _ => .fault .outOfRange
      | .ok f => .next { s with regs := f, response := .executed n.z f }
  else .next (s.reject .invalidInstruction)

end Sys2Proof.Machine
end

