-- ==== Sys2Proof/Machine/Arithmetic.lean ====
section
/-! DEFINITION. The meanings of ADD, SUB and MUL (41_arithmetic.md). -/

namespace Sys2Proof.Machine

/-- ADD: `Z <- (X + Y) mod 2^16; x[C] <- Z; return Z` (R90). -/
def execAdd (a b c : Int) (s : State) : Host.Outcome State Fault Refusal :=
  runDatapath .add a b c s

/-- SUB: `Z <- (X - Y) mod 2^16; x[C] <- Z; return Z` (R91). -/
def execSub (a b c : Int) (s : State) : Host.Outcome State Fault Refusal :=
  runDatapath .sub a b c s

/-- MUL: `Z <- (X * Y) mod 2^16; x[C] <- Z; return Z` (R92). -/
def execMul (a b c : Int) (s : State) : Host.Outcome State Fault Refusal :=
  runDatapath .mul a b c s

end Sys2Proof.Machine
end

