-- ==== Sys2Proof/Machine/Invalid.lean ====
section
/-! DEFINITION. The meanings of the eight INVALID opcodes (44_invalid.md): each executes as a no-op that returns 0,
with status OK and no register written; none is a fault, a trap or a refusal (R120, R121). -/

namespace Sys2Proof.Machine

/-- INVALID, opcode 0111: `Z <- 0; return Z` (R120). -/
def execInvalid0111 (a b c : Int) (s : State) : Host.Outcome State Fault Refusal :=
  runDatapath .invalid a b c s

/-- INVALID, opcode 1000: `Z <- 0; return Z` (R120). -/
def execInvalid1000 (a b c : Int) (s : State) : Host.Outcome State Fault Refusal :=
  runDatapath .invalid a b c s

/-- INVALID, opcode 1001: `Z <- 0; return Z` (R120). -/
def execInvalid1001 (a b c : Int) (s : State) : Host.Outcome State Fault Refusal :=
  runDatapath .invalid a b c s

/-- INVALID, opcode 1010: `Z <- 0; return Z` (R120). -/
def execInvalid1010 (a b c : Int) (s : State) : Host.Outcome State Fault Refusal :=
  runDatapath .invalid a b c s

/-- INVALID, opcode 1011: `Z <- 0; return Z` (R120). -/
def execInvalid1011 (a b c : Int) (s : State) : Host.Outcome State Fault Refusal :=
  runDatapath .invalid a b c s

/-- INVALID, opcode 1100: `Z <- 0; return Z` (R120). -/
def execInvalid1100 (a b c : Int) (s : State) : Host.Outcome State Fault Refusal :=
  runDatapath .invalid a b c s

/-- INVALID, opcode 1101: `Z <- 0; return Z` (R120). -/
def execInvalid1101 (a b c : Int) (s : State) : Host.Outcome State Fault Refusal :=
  runDatapath .invalid a b c s

/-- INVALID, opcode 1110: `Z <- 0; return Z` (R120). -/
def execInvalid1110 (a b c : Int) (s : State) : Host.Outcome State Fault Refusal :=
  runDatapath .invalid a b c s

end Sys2Proof.Machine
end

