-- ==== Sys2Proof/Machine/LoadImmediate.lean ====
section
/-! DEFINITION. The meaning of LOAD_IMMEDIATE (43_load_immediate.md). -/

namespace Sys2Proof.Machine

/-- LOAD_IMMEDIATE: `Z <- zext_16(B); x[A] <- Z; return Z`. The destination is field A, the value is field B itself,
both read values are discarded and C is not used (R110, R111; 90_conflicts.md C1). -/
def execLoadImmediate (a b c : Int) (s : State) : Host.Outcome State Fault Refusal :=
  runDatapath .loadImmediate a b c s

end Sys2Proof.Machine
end

