-- ==== Sys2Proof/Machine/Logical.lean ====
section
/-! DEFINITION. The meanings of AND, OR, XOR and NOT (42_logical.md). -/

namespace Sys2Proof.Machine

/-- AND: `Z <- X & Y; x[C] <- Z; return Z` (R100). -/
def execAnd (a b c : Int) (s : State) : Host.Outcome State Fault Refusal :=
  runDatapath .and a b c s

/-- OR: `Z <- X | Y; x[C] <- Z; return Z` (R101). -/
def execOr (a b c : Int) (s : State) : Host.Outcome State Fault Refusal :=
  runDatapath .or a b c s

/-- XOR: `Z <- X ^ Y; x[C] <- Z; return Z` (R102). -/
def execXor (a b c : Int) (s : State) : Host.Outcome State Fault Refusal :=
  runDatapath .xor a b c s

/-- NOT: `Z <- (~X) & 0xFFFF; x[C] <- Z; return Z`; the value at B is read and discarded (R103). -/
def execNot (a b c : Int) (s : State) : Host.Outcome State Fault Refusal :=
  runDatapath .not a b c s

end Sys2Proof.Machine
end

