-- ==== Sys2Proof/Machine/Dispatch.lean ====
section
/-! DEFINITION. The dispatch: one arm per constructor of Instr, each one direct call of that instruction's meaning. -/

namespace Sys2Proof.Machine

def exec (i : Instr) (s : State) : Host.Outcome State Fault Refusal :=
  match i with
  | .add a b c => Sys2Proof.Machine.execAdd a b c s
  | .sub a b c => Sys2Proof.Machine.execSub a b c s
  | .mul a b c => Sys2Proof.Machine.execMul a b c s
  | .and a b c => Sys2Proof.Machine.execAnd a b c s
  | .or a b c => Sys2Proof.Machine.execOr a b c s
  | .xor a b c => Sys2Proof.Machine.execXor a b c s
  | .not a b c => Sys2Proof.Machine.execNot a b c s
  | .invalid0111 a b c => Sys2Proof.Machine.execInvalid0111 a b c s
  | .invalid1000 a b c => Sys2Proof.Machine.execInvalid1000 a b c s
  | .invalid1001 a b c => Sys2Proof.Machine.execInvalid1001 a b c s
  | .invalid1010 a b c => Sys2Proof.Machine.execInvalid1010 a b c s
  | .invalid1011 a b c => Sys2Proof.Machine.execInvalid1011 a b c s
  | .invalid1100 a b c => Sys2Proof.Machine.execInvalid1100 a b c s
  | .invalid1101 a b c => Sys2Proof.Machine.execInvalid1101 a b c s
  | .invalid1110 a b c => Sys2Proof.Machine.execInvalid1110 a b c s
  | .loadImmediate a b c => Sys2Proof.Machine.execLoadImmediate a b c s

end Sys2Proof.Machine
end

