-- ==== Sys2Proof/Machine/HostOps.lean ====
section
/-! DEFINITION. The host's side of a step: taking the next presented operation, the operations beside execute (bulk
replace and snapshot), reset, and a step with no operation. -/

namespace Sys2Proof.Machine

/-- The operation presented to the next step, and the state with it taken. When the host presents none the step is a
step with `cmd = NONE` (10_state.md R38, 70_reset_and_hazards.md R157, decision D23; DESIGN CHOICE, log entry 1). -/
def State.takeCommand (s : State) : Command × State :=
  match s.pending with
  | [] => (.idle, s)
  | cmd :: rest => (cmd, { s with pending := rest })

/-- A step with `cmd = NONE`: nothing changes and no result is produced (10_state.md R38). -/
def runIdle (s : State) : Host.Outcome State Fault Refusal :=
  .next { s with response := .none }

/-- Bulk replace: all 16 registers loaded together, no result value; a sequence of any other length is rejected and the
file left unchanged (10_state.md R27). -/
def runReplaceAll (values : List Nat) (s : State) : Host.Outcome State Fault Refusal :=
  match RegFile.ofValues values with
  | .error kind => .next (s.reject kind)
  | .ok f => .next { s with regs := f, response := .replaced }

/-- Snapshot: the 16 current values are returned and nothing changes (10_state.md R28). -/
def runSnapshot (s : State) : Host.Outcome State Fault Refusal :=
  .next { s with response := .snapshot s.regs.values }

/-- Reset: every register to 0 together, at any time (70_reset_and_hazards.md R150). The operations the host has yet to
present stay; reset is no operation and returns nothing (DESIGN CHOICE, log entry 4). -/
def runReset (s : State) : Host.Outcome State Fault Refusal :=
  .next { s with regs := State.reset.regs, response := .none }

/-- The state with the four fields of an opcode-table word of `nbits` bits presented as the next operation, ahead of
those already pending. A value above 16 bits keeps its excess in the opcode field, which validation rejects: a field
is never wrapped (40_execute.md R71; DESIGN CHOICE, log entries 3 and 6). -/
def State.presentTableWord (s : State) (nbits w : Nat) : State :=
  let v := w % 2 ^ nbits
  let cmd := Command.execute ((v / 2 ^ 12 : Nat) : Int) ((v / 2 ^ 8 % 16 : Nat) : Int)
    ((v / 2 ^ 4 % 16 : Nat) : Int) ((v % 16 : Nat) : Int)
  { s with pending := cmd :: s.pending }

end Sys2Proof.Machine
end

