-- ==== Sys2Proof/Machine/Execute.lean ====
section
/-! DEFINITION. Serving one presented operation: an execute is validated, decoded and dispatched; the others are the
host's operations. -/

namespace Sys2Proof.Machine

/-- An execute: the tuple is validated and decoded, and the instruction runs; a tuple with a field outside [0,15] is
rejected before any read (40_execute.md R71, R73). -/
def runExecute (op a b c : Int) (s : State) : Host.Outcome State Fault Refusal :=
  match decodeTuple op a b c with
  | .error _ => .next (s.reject .invalidInstruction)
  | .ok i => exec i s

/-- One operation on a state (10_state.md R26), reset (R150) or none (R38). -/
def runCommand (cmd : Command) (s : State) : Host.Outcome State Fault Refusal :=
  match cmd with
  | .idle => runIdle s
  | .execute op a b c => runExecute op a b c s
  | .replaceAll values => runReplaceAll values s
  | .snapshot => runSnapshot s
  | .reset => runReset s

end Sys2Proof.Machine
end

