-- ==== Sys2Proof/Machine/Step.lean ====
section
/-! DEFINITION. One step: the next presented operation, served whole (20_memory.md R46, 70_reset_and_hazards.md R156). -/

namespace Sys2Proof.Machine

/-- One step. There is no program counter and no fetch: the host presents each instruction (10_state.md R29). -/
def step (s : State) : Host.Outcome State Fault Refusal :=
  runCommand s.takeCommand.1 s.takeCommand.2

/-- The state in which an opcode-table word is what the next step executes. -/
def State.withFetchWord (s : State) (nbits w : Nat) : State :=
  s.presentTableWord nbits w

end Sys2Proof.Machine
end

