-- ==== Sys2Proof/Machine/Assembly.lean ====
section
/-! DEFINITION. The spec's assembly syntax (30_encoding.md R62 to R65, decision D4): one line is one instruction, and
an operand out of range is refused, never wrapped. The lexical detail the spec leaves open is a DESIGN CHOICE (log
entry 9). -/

namespace Sys2Proof.Machine

/-- Why the assembler refuses a line (30_encoding.md R64). -/
inductive AsmError where
  /-- a register operand outside r0 to r15 -/
  | registerOutOfRange
  /-- an immediate outside [0,15] -/
  | immediateOutOfRange
  /-- a `.insn` field outside [0,15] -/
  | fieldOutOfRange
  /-- a wrong number of operands for the mnemonic -/
  | wrongOperandCount
  /-- a text that is no operand of the kind its place asks for (a refusal R64 does not name; DESIGN CHOICE, log entry 9) -/
  | malformedOperand
  /-- a mnemonic that is none of R62's and not `.insn` (a refusal R64 does not name; DESIGN CHOICE, log entry 9) -/
  | unknownMnemonic
  deriving DecidableEq, Repr

/-- A space or a tab. -/
def isBlank (ch : Char) : Bool :=
  ch == ' ' || ch == '\t'

/-- The text without the blanks at its two ends. -/
def trimBlanks (t : List Char) : List Char :=
  ((t.dropWhile isBlank).reverse.dropWhile isBlank).reverse

/-- The pieces of a text between its commas. -/
def splitCommas : List Char → List (List Char)
  | [] => [[]]
  | ch :: rest =>
    match splitCommas rest with
    | [] => [[ch]]
    | piece :: pieces => if ch = ',' then [] :: piece :: pieces else (ch :: piece) :: pieces

/-- The operand texts of a line; an empty text has none. -/
def operandTexts (t : List Char) : List (List Char) :=
  match trimBlanks t with
  | [] => []
  | t' => (splitCommas t').map trimBlanks

/-- The value of a digit in a base. -/
def digitValue (base : Nat) (ch : Char) : Option Nat :=
  let n := ch.toNat
  let v :=
    if 48 ≤ n ∧ n ≤ 57 then n - 48
    else if 97 ≤ n ∧ n ≤ 102 then n - 87
    else if 65 ≤ n ∧ n ≤ 70 then n - 55
    else base
  if v < base then some v else none

/-- The value of a run of digits after a prefix whose value is `acc`. -/
def digitsFrom (base acc : Nat) : List Char → Option Nat
  | [] => some acc
  | ch :: rest =>
    match digitValue base ch with
    | none => none
    | some d => digitsFrom base (acc * base + d) rest

/-- The value of a non-empty run of digits. -/
def digits (base : Nat) (t : List Char) : Option Nat :=
  if t.isEmpty then none else digitsFrom base 0 t

/-- A number in decimal, or in hexadecimal with `0x`, or in binary with `0b` (30_encoding.md R62). -/
def natural : List Char → Option Nat
  | '0' :: 'x' :: t => digits 16 t
  | '0' :: 'b' :: t => digits 2 t
  | t => digits 10 t

/-- A number that must be in [0,15], a refusal otherwise (30_encoding.md R64). The spec gives no signed form: a minus sign
before the digits makes the number negative, so out of range, unless it is 0, and minus zero (`r-0`, `#-0`, a `.insn`
field `-0`) is accepted as 0 (DESIGN CHOICE, log entry 9). -/
def inField (err : AsmError) (t : List Char) (value : List Char → Option Nat) : Except AsmError (Fin 16) :=
  let neg := t.head? == some '-'
  match value (if neg then t.tail else t) with
  | none => .error .malformedOperand
  | some n => if h : n < 16 then (if neg && n != 0 then .error err else .ok ⟨n, h⟩) else .error err

/-- A register operand `r0` to `r15`, the index in decimal (30_encoding.md R62). -/
def registerOperand : List Char → Except AsmError (Fin 16)
  | 'r' :: t => inField .registerOutOfRange t (digits 10)
  | _ => .error .malformedOperand

/-- An immediate operand `#n` (30_encoding.md R62). -/
def immediateOperand : List Char → Except AsmError (Fin 16)
  | '#' :: t => inField .immediateOutOfRange t natural
  | _ => .error .malformedOperand

/-- A number of a `.insn` line (30_encoding.md R63). R62 gives the bases of an immediate and R63 none for these numbers;
the model reads them in the same three bases (DESIGN CHOICE, log entry 9). -/
def fieldOperand (t : List Char) : Except AsmError (Fin 16) :=
  inField .fieldOutOfRange t natural

/-- The opcode of a mnemonic of the RRR form (30_encoding.md R54, R62). -/
def rrrOpcode (m : List Char) : Option (BitVec 4) :=
  if m = "ADD".toList then some 0
  else if m = "SUB".toList then some 1
  else if m = "MUL".toList then some 2
  else if m = "AND".toList then some 3
  else if m = "OR".toList then some 4
  else if m = "XOR".toList then some 5
  else none

/-- A line of the RRR form, `ADD rA, rB, rC` (30_encoding.md R63). -/
def assembleRrr (op : BitVec 4) (operands : List (List Char)) : Except AsmError Instr :=
  match operands with
  | [ta, tb, tc] => do
    let a ← registerOperand ta
    let b ← registerOperand tb
    let c ← registerOperand tc
    return instrOfOpcode op (fld a) (fld b) (fld c)
  | _ => .error .wrongOperandCount

/-- A NOT line: `NOT rA, rC` sets B = 0, `NOT rA, rB, rC` sets it explicitly (30_encoding.md R63). -/
def assembleNot (operands : List (List Char)) : Except AsmError Instr :=
  match operands with
  | [ta, tc] => do
    let a ← registerOperand ta
    let c ← registerOperand tc
    return .not (fld a) (fld 0) (fld c)
  | [ta, tb, tc] => do
    let a ← registerOperand ta
    let b ← registerOperand tb
    let c ← registerOperand tc
    return .not (fld a) (fld b) (fld c)
  | _ => .error .wrongOperandCount

/-- A LOAD_IMMEDIATE line: `LOAD_IMMEDIATE rA, #imm` sets C = 0, the full form sets it explicitly (30_encoding.md R63). -/
def assembleLoadImmediate (operands : List (List Char)) : Except AsmError Instr :=
  match operands with
  | [ta, tb] => do
    let a ← registerOperand ta
    let b ← immediateOperand tb
    return .loadImmediate (fld a) (fld b) (fld 0)
  | [ta, tb, tc] => do
    let a ← registerOperand ta
    let b ← immediateOperand tb
    let c ← registerOperand tc
    return .loadImmediate (fld a) (fld b) (fld c)
  | _ => .error .wrongOperandCount

/-- A `.insn op, A, B, C` line, which encodes the tuple as it stands, INVALID opcodes included (30_encoding.md R63). -/
def assembleInsn (operands : List (List Char)) : Except AsmError Instr :=
  match operands with
  | [top, ta, tb, tc] => do
    let op ← fieldOperand top
    let a ← fieldOperand ta
    let b ← fieldOperand tb
    let c ← fieldOperand tc
    return instrOfOpcode (BitVec.ofFin op) (fld a) (fld b) (fld c)
  | _ => .error .wrongOperandCount

/-- The mnemonic of a line: its text up to the first blank (DESIGN CHOICE, log entry 9). -/
def lineMnemonic (line : List Char) : List Char :=
  (trimBlanks line).takeWhile fun ch => !isBlank ch

/-- The operand texts of a line: the pieces between the commas after the mnemonic (DESIGN CHOICE, log entry 9). -/
def lineOperands (line : List Char) : List (List Char) :=
  operandTexts ((trimBlanks line).dropWhile fun ch => !isBlank ch)

/-- The instruction a mnemonic and its operand texts stand for, by the forms of 30_encoding.md R63. -/
def assembleForm (m : List Char) (operands : List (List Char)) : Except AsmError Instr :=
  match rrrOpcode m with
  | some op => assembleRrr op operands
  | none =>
    if m = "NOT".toList then assembleNot operands
    else if m = "LOAD_IMMEDIATE".toList then assembleLoadImmediate operands
    else if m = ".insn".toList then assembleInsn operands
    else .error .unknownMnemonic

/-- One assembly line is one instruction; there is no pseudo-instruction (30_encoding.md R63, R65). -/
def assembleLine (line : List Char) : Except AsmError Instr :=
  assembleForm (lineMnemonic line) (lineOperands line)

/-- The lines of a text from line number `n` on; a refusal names the line (30_encoding.md R64). -/
def assembleFrom (n : Nat) : List (List Char) → Except (Nat × AsmError) (List Instr)
  | [] => .ok []
  | line :: rest =>
    match assembleLine line with
    | .error e => .error (n, e)
    | .ok i =>
      match assembleFrom (n + 1) rest with
      | .error e => .error e
      | .ok is => .ok (i :: is)

/-- A list of assembly lines, the first numbered 1 (DESIGN CHOICE, log entry 9). -/
def assembleProgram (lines : List (List Char)) : Except (Nat × AsmError) (List Instr) :=
  assembleFrom 1 lines

end Sys2Proof.Machine
end

