-- ==== Sys2Proof/Machine/Signals.lean ====
section
/-! DEFINITION. The hardware reading of the interface: the input and output signals of 10_state.md R38, at the widths of
R39, and how a step with given inputs is one presented operation. -/

namespace Sys2Proof.Machine

/-- The operation select `cmd` (10_state.md R38). -/
inductive CmdSelect where
  | none | execute | replaceAll | snapshot
  deriving DecidableEq, Repr

/-- The block's input signals (10_state.md R38). -/
structure Inputs where
  op : BitVec 4
  a : BitVec 4
  b : BitVec 4
  c : BitVec 4
  cmd : CmdSelect
  ld : RegFile
  rst : Bool
  deriving DecidableEq, Repr

/-- The block's output signals (10_state.md R38). `z` and `status` are meaningful only in the step that produces them,
so in any other step they are absent. -/
structure Outputs where
  z : Option Word
  status : Option Status
  snap : RegFile
  deriving DecidableEq, Repr

/-- The operation a step with these inputs performs. Reset may be asserted at any time (70_reset_and_hazards.md R150);
with it asserted, `cmd` performs nothing (DESIGN CHOICE, log entry 4). -/
def Inputs.command (i : Inputs) : Command :=
  if i.rst then .reset
  else
    match i.cmd with
    | .none => .idle
    | .execute => .execute i.op.toNat i.a.toNat i.b.toNat i.c.toNat
    | .replaceAll => .replaceAll (i.ld.toList.map BitVec.toNat)
    | .snapshot => .snapshot

/-- The output signals at the end of the step that gave this state: `snap[i]` is x[i] (10_state.md R38). -/
def State.outputs (s : State) : Outputs where
  z := s.response.result
  status := s.response.status
  snap := s.regs

/-- A step with these inputs. -/
def stepSignals (i : Inputs) (s : State) : Host.Outcome State Fault Refusal :=
  runCommand i.command s

end Sys2Proof.Machine
end

