-- ==== Sys2Proof/Safety.lean ====
section
/-! DEFINITION. The terms the statements use: a safe run, the coherence of a response with the registers, the
destination of an instruction, and a reference reading of the spec's pseudocode over plain integers that shares no
definition with the datapath, with one of the assembly syntax beside it. -/

namespace Sys2Proof

/-- The destination of an instruction, from the opcode map's column (30_encoding.md R56): field A for LOAD_IMMEDIATE,
none for INVALID, field C for the rest. -/
def Instr.destination : Instr → Option Int
  | .add _ _ c | .sub _ _ c | .mul _ _ c | .and _ _ c | .or _ _ c | .xor _ _ c | .not _ _ c => some c
  | .loadImmediate a _ _ => some a
  | .invalid0111 _ _ _ | .invalid1000 _ _ _ | .invalid1001 _ _ _ | .invalid1010 _ _ _
  | .invalid1011 _ _ _ | .invalid1100 _ _ _ | .invalid1101 _ _ _ | .invalid1110 _ _ _ => none

/-- Two instructions have the same values in the fields their form uses: all three under RRR, A and C under RR, A and B
under RI, none under NONE (30_encoding.md R54, R60). -/
def Instr.SameUsedFields (form : Form) (i j : Instr) : Prop :=
  match form with
  | .rrr => i.fieldA = j.fieldA ∧ i.fieldB = j.fieldB ∧ i.fieldC = j.fieldC
  | .rr => i.fieldA = j.fieldA ∧ i.fieldC = j.fieldC
  | .ri => i.fieldA = j.fieldA ∧ i.fieldB = j.fieldB
  | .none => True

/-- The eight INVALID instructions with given fields (44_invalid.md R120). -/
def invalidInstrs (a b c : Int) : List Instr :=
  [.invalid0111 a b c, .invalid1000 a b c, .invalid1001 a b c, .invalid1010 a b c,
   .invalid1011 a b c, .invalid1100 a b c, .invalid1101 a b c, .invalid1110 a b c]

namespace Machine

/-- A run of `n` steps is safe when it ends in a state: no fault and no refusal ("No fatal/unrecoverable error exists in
the core", 60_exceptions.md R131). -/
def SafeRun (n : Nat) (s : State) : Prop :=
  ∃ t : State, core.run n s = .next t

/-- What a response carries agrees with the state it stands in: the registers it shows are the state's registers
(10_state.md R28, R38), and no operation of the block has reported OutOfRange (60_exceptions.md R134). -/
def State.Coherent (s : State) : Prop :=
  (∀ f, s.response.snap = some f → f = s.regs) ∧ s.response ≠ .rejected .outOfRange

/-- What the host receives from a step beside the registers: the status and the result as a number. -/
abbrev Answer := Option Status × Option Nat

/-- The answer in a response. -/
def Response.answer (r : Response) : Answer :=
  (r.status, r.result.map BitVec.toNat)

/-- The answers of `n` steps, in order (70_reset_and_hazards.md R157). -/
def answers : Nat → State → List Answer
  | 0, _ => []
  | n + 1, s =>
    match step s with
    | .next t => t.response.answer :: answers n t
    | .fault _ => []
    | .refused _ => []

/-- The registers as a map from indices to numbers (10_state.md R34); 0 at a number that is no index. -/
def RegFile.asMap (f : RegFile) : Int → Nat :=
  fun i => if h : 0 ≤ i ∧ i ≤ 15 then (f[i.toNat]'(by omega)).toNat else 0

/-- The operation writes register `k`: an execute that decodes to an instruction with that destination, or a bulk replace
of 16 values (10_state.md R27, R37; 40_execute.md R82). Reset is no write: it starts the count anew (R36). -/
def Command.Writes (cmd : Command) (k : Fin 16) : Prop :=
  match cmd with
  | .execute op a b c => ∃ i : Instr, decodeTuple op a b c = .ok i ∧ i.destination = some (fld k)
  | .replaceAll values => values.length = 16
  | .idle | .snapshot | .reset => False

/-- The result an instruction returns in a state, where it returns one (40_execute.md R81). -/
def resultOf (i : Instr) (s : State) : Option Word :=
  match exec i s with
  | .next t => t.response.result
  | .fault _ => none
  | .refused _ => none

/-- The value an instruction with operands r0 and r1 and destination r2 leaves in r2 when x[0] = X and x[1] = Y and the
other registers are 0, the setting of 95_test_vectors.md section 2; absent if it answers no next state. -/
def computed (instr : Int → Int → Int → Instr) (x y : Word) : Option Word :=
  match exec (instr 0 1 2) { State.reset with regs := (State.reset.regs.set 0 x).set 1 y } with
  | .next t => some t.regs[2]
  | .fault _ => none
  | .refused _ => none

/-- What the spec says of an instruction of opcode `code` whose destination is field C: its packed word; for fields in
[0,15] the one next state, in which x[C] holds the result, every other register its old value, and the result is
returned with the registers after the write; for a field outside [0,15] a rejection that changes no register. `isResult
X Y z` says that z is the result on X = x[A] and Y = x[B] (30_encoding.md R52, 40_execute.md R71 to R81). -/
def WritesFieldC (instr : Int → Int → Int → Instr) (code : Nat) (isResult : Word → Word → Word → Prop) : Prop :=
  (∀ a b c : Fin 16,
    (encode (instr (fld a) (fld b) (fld c))).toNat = code * 4096 + a.val * 256 + b.val * 16 + c.val) ∧
  (∀ (a b c : Fin 16) (s : State), ∃ z : Word, isResult s.regs[a] s.regs[b] z ∧
    exec (instr (fld a) (fld b) (fld c)) s =
      .next { s with regs := s.regs.set c z, response := .executed z (s.regs.set c z) }) ∧
  (∀ a b c : Int, ¬(FieldInRange a ∧ FieldInRange b ∧ FieldInRange c) → ∀ s : State,
    exec (instr a b c) s = .next { s with response := .rejected .invalidInstruction })

end Machine

namespace Reference

open Sys2Proof.Machine (ErrorKind Status Command Answer AsmError registerOperand immediateOperand fieldOperand)

/-- The map with one value replaced. -/
def update (x : Int → Nat) (i : Int) (v : Nat) : Int → Nat :=
  fun j => if j = i then v else x j

/-- The result column of the opcode map on exact integers (30_encoding.md R56, 40_execute.md section 2). -/
def result (op b : Int) (x y : Nat) : Nat :=
  if op = 0 then (x + y) % 65536
  else if op = 1 then (((x : Int) - (y : Int)) % 65536).toNat
  else if op = 2 then (x * y) % 65536
  else if op = 3 then x &&& y
  else if op = 4 then x ||| y
  else if op = 5 then x ^^^ y
  else if op = 6 then 65535 - x
  else if op = 15 then b.toNat
  else 0

/-- The whole execute operation of 40_execute.md section 2 on a map of numbers. -/
def execute (op a b c : Int) (x : Int → Nat) : Except ErrorKind (Nat × (Int → Nat)) :=
  if op < 0 ∨ 15 < op ∨ a < 0 ∨ 15 < a ∨ b < 0 ∨ 15 < b ∨ c < 0 ∨ 15 < c then .error .invalidInstruction
  else
    let z := result op b (x a) (x b)
    .ok (z, if op ≤ 6 then update x c z else if op = 15 then update x a z else x)

/-- One presented operation on a map of numbers: the new map, and the answer to the host (10_state.md R26 to R28,
70_reset_and_hazards.md R150). -/
def serve (cmd : Command) (x : Int → Nat) : (Int → Nat) × Answer :=
  match cmd with
  | .idle => (x, none, none)
  | .execute op a b c =>
    match execute op a b c x with
    | .error _ => (x, some .invalidInstruction, none)
    | .ok (z, x') => (x', some .ok, some z)
  | .replaceAll values =>
    if values.length = 16 then
      (fun i => if 0 ≤ i ∧ i ≤ 15 then values.getD i.toNat 0 % 65536 else 0, some .ok, none)
    else (x, some .invalidRegisterSet, none)
  | .snapshot => (x, some .ok, none)
  | .reset => (fun _ => 0, none, none)

/-- A sequence of operations served one after another, each seeing the effects of those before it (20_memory.md R47). -/
def run : List Command → (Int → Nat) → (Int → Nat) × List Answer
  | [], x => (x, [])
  | cmd :: rest, x =>
    let (x', answer) := serve cmd x
    let (x'', rest') := run rest x'
    (x'', answer :: rest')

/-! The assembly syntax, read apart from the assembler: numbers by the place value of their digits and with no bound. -/

/-- The places an operand of 30_encoding.md R63 can stand in. -/
inductive OperandPlace where
  /-- a register operand -/
  | register
  /-- an immediate operand -/
  | immediate
  /-- a number of a `.insn` line -/
  | insnField
  deriving DecidableEq, Repr

/-- The assembler's reader of an operand in that place. -/
def OperandPlace.read : OperandPlace → List Char → Except AsmError (Fin 16)
  | .register => registerOperand
  | .immediate => immediateOperand
  | .insnField => fieldOperand

/-- The refusal of R64 for a number outside [0,15] in that place. -/
def OperandPlace.outOfRange : OperandPlace → AsmError
  | .register => .registerOutOfRange
  | .immediate => .immediateOutOfRange
  | .insnField => .fieldOutOfRange

/-- The digits of a base, in order of their values, with the hexadecimal letters of one case. -/
def digitsOf (letters : List Char) (base : Nat) : List Char :=
  (['0', '1', '2', '3', '4', '5', '6', '7', '8', '9'] ++ letters).take base

/-- The value of a digit, its position among the digits of the base, in either case. -/
def digit (base : Nat) (ch : Char) : Option Nat :=
  ((digitsOf ['a', 'b', 'c', 'd', 'e', 'f'] base).idxOf? ch).or
    ((digitsOf ['A', 'B', 'C', 'D', 'E', 'F'] base).idxOf? ch)

/-- The value of a run of digits: each digit times the base to the power of the number of digits after it. -/
def placeValue (base : Nat) : List Char → Option Nat
  | [] => some 0
  | ch :: rest =>
    match digit base ch, placeValue base rest with
    | some d, some v => some (d * base ^ rest.length + v)
    | _, _ => none

/-- The value of a non-empty run of digits. -/
def numeral (base : Nat) (t : List Char) : Option Nat :=
  if t = [] then none else placeValue base t

/-- The value of a number in one of the three bases of R62. -/
def numeralAnyBase (t : List Char) : Option Nat :=
  if t.take 2 = "0x".toList then numeral 16 (t.drop 2)
  else if t.take 2 = "0b".toList then numeral 2 (t.drop 2)
  else numeral 10 t

/-- The number a text writes, with a minus sign read as log entry 9 says. -/
def signedNumber (value : List Char → Option Nat) (t : List Char) : Option Int :=
  if t.head? = some '-' then (value t.tail).map fun n => -(n : Int) else (value t).map fun n => (n : Int)

/-- The number an operand text writes in a place, of any size; none where the text is no operand of that place
(30_encoding.md R62, R63; log entry 9). -/
def OperandPlace.number (p : OperandPlace) (t : List Char) : Option Int :=
  match p with
  | .register => if t.head? = some 'r' then signedNumber (numeral 10) t.tail else none
  | .immediate => if t.head? = some '#' then signedNumber numeralAnyBase t.tail else none
  | .insnField => signedNumber numeralAnyBase t

/-- The mnemonics of the RRR form with their opcodes (30_encoding.md R54, R56). -/
def rrrCodes : List (String × Int) :=
  [("ADD", 0), ("SUB", 1), ("MUL", 2), ("AND", 3), ("OR", 4), ("XOR", 5)]

/-- The opcode of a mnemonic of the RRR form. -/
def rrrCode (m : List Char) : Option Int :=
  rrrCodes.lookup (String.ofList m)

/-- The first word of a line that has forms: the mnemonics of R62, and `.insn` (R63). -/
def isMnemonic (m : List Char) : Bool :=
  (rrrCode m).isSome || m == "NOT".toList || m == "LOAD_IMMEDIATE".toList || m == ".insn".toList

/-- The forms of 30_encoding.md R63: the places of `count` operands after a mnemonic, none where it has no such form. -/
def operandPlaces (m : List Char) (count : Nat) : Option (List OperandPlace) :=
  if (rrrCode m).isSome then if count = 3 then some [.register, .register, .register] else none
  else if m = "NOT".toList then
    if count = 2 then some [.register, .register]
    else if count = 3 then some [.register, .register, .register]
    else none
  else if m = "LOAD_IMMEDIATE".toList then
    if count = 2 then some [.register, .immediate]
    else if count = 3 then some [.register, .immediate, .register]
    else none
  else if m = ".insn".toList then
    if count = 4 then some [.insnField, .insnField, .insnField, .insnField] else none
  else none

/-- The tuple (opcode, A, B, C) a mnemonic and the numbers of its operands stand for: the short form of NOT sets B = 0,
that of LOAD_IMMEDIATE sets C = 0, and `.insn` gives the tuple as it stands (30_encoding.md R63). -/
def lineTuple (m : List Char) (numbers : List Int) : List Int :=
  match rrrCode m with
  | some code => code :: numbers
  | none =>
    if m = "NOT".toList then
      match numbers with
      | [a, c] => [6, a, 0, c]
      | _ => 6 :: numbers
    else if m = "LOAD_IMMEDIATE".toList then
      match numbers with
      | [a, imm] => [15, a, imm, 0]
      | _ => 15 :: numbers
    else numbers

/-- The tuple (opcode, A, B, C) of an instruction. -/
def tupleOf (i : Instr) : List Int :=
  [(i.opcode : Int), i.fieldA, i.fieldB, i.fieldC]

end Reference

end Sys2Proof
end

