-- ==== Sys2Proof/Certificates/Slice0/Obligations.lean ====
section
/-! DEFINITION. The statements for the provers, from the numbered rules of the spec. -/

open Sys2Proof Sys2Proof.Machine

/-! ### Encoding and decoding -/

/-- Words written out from the layout `{opcode, A, B, C}` decode to the instructions they stand for, one word for each
opcode (30_encoding.md R52, R56; words of R63 and of 95_test_vectors.md). The layout is the spec's decision D3. -/
def Obligations.WrittenOutWordsDecode : Prop :=
  decodeWord 0x0ABC = .add 10 11 12 ∧ decodeWord 0x1012 = .sub 0 1 2 ∧ decodeWord 0x2130 = .mul 1 3 0 ∧
  decodeWord 0x3147 = .and 1 4 7 ∧ decodeWord 0x4328 = .or 3 2 8 ∧ decodeWord 0x5146 = .xor 1 4 6 ∧
  decodeWord 0x6393 = .not 3 9 3 ∧ decodeWord 0x70F5 = .invalid0111 0 15 5 ∧
  decodeWord 0x81E8 = .invalid1000 1 14 8 ∧ decodeWord 0x92DB = .invalid1001 2 13 11 ∧
  decodeWord 0xA3CE = .invalid1010 3 12 14 ∧ decodeWord 0xB4B1 = .invalid1011 4 11 1 ∧
  decodeWord 0xC5A4 = .invalid1100 5 10 4 ∧ decodeWord 0xD697 = .invalid1101 6 9 7 ∧
  decodeWord 0xE78A = .invalid1110 7 8 10 ∧ decodeWord 0xF3F4 = .loadImmediate 3 15 4

/-- Decoding the packed word of a well-formed instruction gives the instruction back, with every operand at every value
its field admits (30_encoding.md R52, R53, R56). -/
def Obligations.DecodeOfEncodeIsTheInstruction : Prop :=
  ∀ i : Instr, i.WellFormed → decodeWord (encode i) = i

/-- Every one of the 65536 words decodes to a well-formed instruction whose packed word it is (30_encoding.md R53). -/
def Obligations.EncodeOfDecodeIsTheWord : Prop :=
  ∀ w : Word, (decodeWord w).WellFormed ∧ encode (decodeWord w) = w

/-- A word's tuple is (word[15:12], word[11:8], word[7:4], word[3:0]), and every tuple of four 4-bit fields is the tuple
of exactly one word (30_encoding.md R52, R53). The layout is the spec's decision D3. -/
def Obligations.PackedWordsAreExactlyTheTuples : Prop :=
  (∀ w : Word, (unpackWord w).op.toNat = w.toNat / 4096 ∧ (unpackWord w).a.toNat = w.toNat / 256 % 16 ∧
    (unpackWord w).b.toNat = w.toNat / 16 % 16 ∧ (unpackWord w).c.toNat = w.toNat % 16) ∧
  (∀ t : FieldTuple, ∃! w : Word, unpackWord w = t)

/-- The decoder asserts exactly one of its nine class outputs for each opcode, by the opcode map; a tuple in range
decodes to the instruction of its opcode with its own fields, whose class is that of the opcode alone
(30_encoding.md R56, R57, R59). That the decoder has nine class outputs is the spec's decision D1. -/
def Obligations.OpcodeAloneFixesTheClass : Prop :=
  (∀ op : BitVec 4, ∃! cls : OpClass, classOutput op cls = true) ∧
  (∀ op : BitVec 4, ∀ cls : OpClass, classOutput op cls = true ↔
    match cls with
    | .add => op.toNat = 0
    | .sub => op.toNat = 1
    | .mul => op.toNat = 2
    | .and => op.toNat = 3
    | .or => op.toNat = 4
    | .xor => op.toNat = 5
    | .not => op.toNat = 6
    | .loadImmediate => op.toNat = 15
    | .invalid => 7 ≤ op.toNat ∧ op.toNat ≤ 14) ∧
  (∀ op a b c : Fin 16, ∃ i : Instr, decodeTuple (fld op) (fld a) (fld b) (fld c) = .ok i ∧ i.opcode = op.val ∧
    i.fieldA = fld a ∧ i.fieldB = fld b ∧ i.fieldC = fld c ∧ i.cls = decodeClass (BitVec.ofFin op))

/-- A tuple of integers decodes to an instruction exactly when all four are in [0,15]; the decoder never wraps a field
(40_execute.md R71, 30_encoding.md R50). -/
def Obligations.TupleDecodesExactlyInRange : Prop :=
  ∀ op a b c : Int,
    (∃ i : Instr, decodeTuple op a b c = .ok i) ↔
      FieldInRange op ∧ FieldInRange a ∧ FieldInRange b ∧ FieldInRange c

/-- Two instructions of one class that differ only in fields their form ignores do the same: B under NOT, C under
LOAD_IMMEDIATE, all three under INVALID, whichever INVALID opcodes they have (30_encoding.md R54, R60). -/
def Obligations.IgnoredFieldsChangeNothing : Prop :=
  ∀ (i j : Instr) (s : State), i.WellFormed → j.WellFormed → i.cls = j.cls →
    Instr.SameUsedFields i.cls.form i j → exec i s = exec j s

/-! ### A step and the execute operation -/

/-- When the host presents an execute whose tuple decodes to an instruction, the step is that instruction's meaning on
the state with the operation taken. There is no program counter and no fetch (10_state.md R29); the list of presented
operations is the model's own field (log entry 1). -/
def Obligations.StepRunsTheDecodedInstruction : Prop :=
  ∀ (s : State) (op a b c : Int) (rest : List Command) (i : Instr),
    s.pending = .execute op a b c :: rest → decodeTuple op a b c = .ok i →
      step s = exec i { s with pending := rest }

/-- A packed word presented to the next step runs as the instruction it decodes to, for every word, and the decoder of
the opcode table reads that instruction (30_encoding.md R52, R53; log entries 1 and 6). -/
def Obligations.PresentedWordRunsItsInstruction : Prop :=
  ∀ (s : State) (w : Word),
    decodeTableWord 16 w.toNat = some (decodeWord w) ∧
      step (s.withFetchWord 16 w.toNat) = exec (decodeWord w) s

/-- An execute with a field outside [0,15], a negative one included, is rejected with InvalidInstruction, whatever its
opcode and whether it uses the field or not; no register changes (40_execute.md R71). -/
def Obligations.ExecuteRejectsFieldOutsideRange : Prop :=
  ∀ (s : State) (op a b c : Int) (rest : List Command),
    s.pending = .execute op a b c :: rest →
    ¬(FieldInRange op ∧ FieldInRange a ∧ FieldInRange b ∧ FieldInRange c) →
      step s = .next { s with pending := rest, response := .rejected .invalidInstruction }

/-- InvalidInstruction is raised by an execute with a field out of range, by nothing else, and the registers are as they
were (60_exceptions.md R132). -/
def Obligations.InvalidInstructionOnlyFromValidation : Prop :=
  ∀ s t : State, step s = .next t →
    (t.response = .rejected .invalidInstruction ↔
      ∃ (op a b c : Int) (rest : List Command), s.pending = .execute op a b c :: rest ∧
        ¬(FieldInRange op ∧ FieldInRange a ∧ FieldInRange b ∧ FieldInRange c)) ∧
    (t.response = .rejected .invalidInstruction → t.regs = s.regs)

/-- InvalidRegisterSet is raised by a bulk replace of other than 16 elements, by nothing else, and the registers are as
they were (60_exceptions.md R133). -/
def Obligations.InvalidRegisterSetOnlyFromBulkReplace : Prop :=
  ∀ s t : State, step s = .next t →
    (t.response = .rejected .invalidRegisterSet ↔
      ∃ (values : List Nat) (rest : List Command), s.pending = .replaceAll values :: rest ∧ values.length ≠ 16) ∧
    (t.response = .rejected .invalidRegisterSet → t.regs = s.regs)

/-- The only error an execute can raise is InvalidInstruction: an execute answers a result or that rejection, never
OutOfRange, and an unrecognised opcode with fields in range answers a result (40_execute.md R83). -/
def Obligations.ExecuteRaisesOnlyInvalidInstruction : Prop :=
  ∀ (s : State) (op a b c : Int) (rest : List Command), s.pending = .execute op a b c :: rest →
    ∃ t : State, step s = .next t ∧
      (t.response = .rejected .invalidInstruction ∨ ∃ z : Word, t.response = .executed z t.regs) ∧
      (7 ≤ op → op ≤ 14 → FieldInRange a → FieldInRange b → FieldInRange c → t.response = .executed 0 t.regs)

/-- A register port answers the value at an index in [0,15] and OutOfRange outside it, and no step of the machine
reaches that error: no step faults and none reports it (10_state.md R23). -/
def Obligations.ReadPortContract : Prop :=
  (∀ (f : RegFile) (k : Fin 16), f.read (fld k) = .ok f[k]) ∧
  (∀ (f : RegFile) (i : Int), ¬(0 ≤ i ∧ i ≤ 15) → f.read i = .error .outOfRange) ∧
  (∀ (s : State), step s ≠ .fault .outOfRange ∧ ∀ t : State, step s = .next t → t.response ≠ .rejected .outOfRange)

/-- The write port stores the value modulo 2^16 at an index in [0,15] and leaves every other cell; outside [0,15] it
answers OutOfRange and writes nothing (10_state.md R20, R25). -/
def Obligations.WritePortContract : Prop :=
  (∀ (f : RegFile) (k : Fin 16) (v : Int), ∃ g : RegFile, f.write (fld k) v = .ok g ∧
    ((g[k].toNat : Int) = v % 65536) ∧ ∀ j : Fin 16, j ≠ k → g[j] = f[j]) ∧
  (∀ (f : RegFile) (i v : Int), ¬(0 ≤ i ∧ i ≤ 15) → f.write i v = .error .outOfRange)

/-- The nets of an execute with fields in range: both ports read, whatever the class; every class but INVALID enables the
write; the write address is field A under LOAD_IMMEDIATE and field C otherwise; the write data is the result
(40_execute.md R72, R77, R78, R79; 10_state.md R24, R38). -/
def Obligations.DatapathNetsFollowTheClass : Prop :=
  ∀ (cls : OpClass) (a b c : Fin 16) (f : RegFile), ∃ n : Nets,
    datapathNets cls (fld a) (fld b) (fld c) f = .ok n ∧ n.rdataA = f[a] ∧ n.rdataB = f[b] ∧
    (n.we = true ↔ cls ≠ .invalid) ∧ (cls = .loadImmediate → n.waddr = fld a) ∧
    (cls ≠ .loadImmediate → n.waddr = fld c) ∧ n.wdata = n.z

/-- Every well-formed instruction completes, whatever its opcode: it answers a next state with status OK, the registers
after its write, and its result, which is the value its destination then holds, or 0 for an INVALID opcode
(40_execute.md R80, R81; 44_invalid.md R120). -/
def Obligations.WellFormedInstructionReturnsWhatItWrites : Prop :=
  ∀ (i : Instr) (s : State), i.WellFormed →
    ∃ (t : State) (z : Word), exec i s = .next t ∧ t.response = .executed z t.regs ∧ t.response.status = some .ok ∧
      (∀ d : Fin 16, i.destination = some (fld d) → t.regs[d] = z) ∧ (i.destination = none → z = 0)

/-- The frame of an execute: it changes at most its destination register, and an INVALID opcode or a rejected
instruction changes none (40_execute.md R82). The operations still pending stay as they are. -/
def Obligations.ExecuteChangesOnlyItsDestination : Prop :=
  ∀ (i : Instr) (s t : State), exec i s = .next t →
    t.pending = s.pending ∧
    (i.destination = none → t.regs = s.regs) ∧
    (¬i.WellFormed → t.regs = s.regs) ∧
    (∀ k : Fin 16, i.destination ≠ some (fld k) → t.regs[k] = s.regs[k])

/-- The write takes effect after both reads: with the destination equal to a source, the result is that of the values
before the call, so `ADD r, r, r` doubles r and `SUB r, r, r` clears it, for every register (40_execute.md R79,
70_reset_and_hazards.md R154). -/
def Obligations.SourcesAreReadBeforeTheWrite : Prop :=
  ∀ (k j : Fin 16) (s : State),
    (∃ t : State, exec (.add (fld k) (fld k) (fld k)) s = .next t ∧ t.regs[k].toNat = 2 * s.regs[k].toNat % 65536) ∧
    (∃ t : State, exec (.sub (fld k) (fld k) (fld k)) s = .next t ∧ t.regs[k] = 0) ∧
    (∃ t : State, exec (.sub (fld k) (fld j) (fld j)) s = .next t ∧
      (t.regs[j].toNat : Int) = ((s.regs[k].toNat : Int) - (s.regs[j].toNat : Int)) % 65536)

/-- A step's result, status and new registers are a function of the presented operation and the registers before it, and
of nothing else: not of an earlier response, nor of the operations to come (40_execute.md R84, 10_state.md R33). -/
def Obligations.StepDependsOnlyOnOperationAndRegisters : Prop :=
  ∀ (s s' : State) (cmd : Command) (rest rest' : List Command),
    s.pending = cmd :: rest → s'.pending = cmd :: rest' → s.regs = s'.regs →
      ∃ t t' : State, step s = .next t ∧ step s' = .next t' ∧ t.regs = t'.regs ∧ t.response = t'.response

/-! ### The instructions -/

/-- ADD: `Z <- (X + Y) mod 2^16; x[C] <- Z; return Z` (41_arithmetic.md R90). -/
def Obligations.AddGivesTheSumModulo65536 : Prop :=
  WritesFieldC .add 0 fun x y z => z.toNat = (x.toNat + y.toNat) % 65536

/-- SUB: `Z <- (X - Y) mod 2^16; x[C] <- Z; return Z`, the exact difference possibly negative (41_arithmetic.md R91). -/
def Obligations.SubGivesTheDifferenceModulo65536 : Prop :=
  WritesFieldC .sub 1 fun x y z => (z.toNat : Int) = ((x.toNat : Int) - (y.toNat : Int)) % 65536

/-- MUL: `Z <- (X * Y) mod 2^16; x[C] <- Z; return Z` (41_arithmetic.md R92). -/
def Obligations.MulGivesTheProductModulo65536 : Prop :=
  WritesFieldC .mul 2 fun x y z => z.toNat = (x.toNat * y.toNat) % 65536

/-- AND: bit i of Z is bit i of X and bit i of Y (42_logical.md R100). -/
def Obligations.AndGivesTheBitwiseAnd : Prop :=
  WritesFieldC .and 3 fun x y z => ∀ i : Nat, z.toNat.testBit i = (x.toNat.testBit i && y.toNat.testBit i)

/-- OR: bit i of Z is bit i of X or bit i of Y (42_logical.md R101). -/
def Obligations.OrGivesTheBitwiseOr : Prop :=
  WritesFieldC .or 4 fun x y z => ∀ i : Nat, z.toNat.testBit i = (x.toNat.testBit i || y.toNat.testBit i)

/-- XOR: bit i of Z is set when exactly one of bit i of X and bit i of Y is (42_logical.md R102). -/
def Obligations.XorGivesTheBitwiseExclusiveOr : Prop :=
  WritesFieldC .xor 5 fun x y z => ∀ i : Nat, z.toNat.testBit i = (x.toNat.testBit i != y.toNat.testBit i)

/-- NOT: Z = 65535 - X; Y plays no part, and a field B out of range is still rejected (42_logical.md R103). -/
def Obligations.NotGivesTheComplement : Prop :=
  WritesFieldC .not 6 fun x _ z => z.toNat = 65535 - x.toNat

/-- LOAD_IMMEDIATE: `Z <- zext_16(B); x[A] <- Z; return Z`. The destination is A; x[C] keeps its value unless C = A, and
a field C out of range is still rejected (43_load_immediate.md R110). -/
def Obligations.LoadImmediateLoadsFieldBIntoFieldA : Prop :=
  (∀ a b c : Fin 16, (encode (.loadImmediate (fld a) (fld b) (fld c))).toNat =
    15 * 4096 + a.val * 256 + b.val * 16 + c.val) ∧
  (∀ (a b c : Fin 16) (s : State), ∃ z : Word, z.toNat = b.val ∧
    exec (.loadImmediate (fld a) (fld b) (fld c)) s =
      .next { s with regs := s.regs.set a z, response := .executed z (s.regs.set a z) } ∧
    (c ≠ a → (s.regs.set a z)[c] = s.regs[c])) ∧
  (∀ a b c : Int, ¬(FieldInRange a ∧ FieldInRange b ∧ FieldInRange c) → ∀ s : State,
    exec (.loadImmediate a b c) s = .next { s with response := .rejected .invalidInstruction })

/-- Every INVALID opcode, 0111 to 1110, executes with Z = 0, status OK and no register written; only a field out of range
is an error, as for every opcode (44_invalid.md R120). -/
def Obligations.InvalidOpcodesReturnZeroAndWriteNothing : Prop :=
  (∀ a b c : Fin 16, (invalidInstrs (fld a) (fld b) (fld c)).map (fun i => (encode i).toNat) =
    [7, 8, 9, 10, 11, 12, 13, 14].map fun op => op * 4096 + a.val * 256 + b.val * 16 + c.val) ∧
  (∀ (a b c : Fin 16) (s : State), ∀ i ∈ invalidInstrs (fld a) (fld b) (fld c),
    exec i s = .next { s with response := .executed 0 s.regs }) ∧
  (∀ a b c : Int, ¬(FieldInRange a ∧ FieldInRange b ∧ FieldInRange c) → ∀ (s : State), ∀ i ∈ invalidInstrs a b c,
    exec i s = .next { s with response := .rejected .invalidInstruction })

/-- Z = 0 from an INVALID opcode is the Z = 0 of a recognised opcode, and the registers tell the two apart exactly when
the recognised opcode's destination held a non-zero value (44_invalid.md R122). -/
def Obligations.InvalidIsToldApartOnlyByNonZeroDestination : Prop :=
  ∀ (a b c d : Fin 16) (s u : State) (j : Instr),
    j.destination = some (fld d) → exec j s = .next u → u.response.result = some 0 →
    ∀ i ∈ invalidInstrs (fld a) (fld b) (fld c), ∃ t : State, exec i s = .next t ∧
      t.response.result = u.response.result ∧ (t.regs ≠ u.regs ↔ s.regs[d] ≠ 0)

/-- A program that reads registers as 16-bit two's-complement numbers gets the two's-complement result modulo 2^16 from
ADD, SUB and MUL (41_arithmetic.md R94). -/
def Obligations.ArithmeticAgreesWithTwosComplement : Prop :=
  ∀ (a b c : Fin 16) (s : State),
    (∃ z : Word, resultOf (.add (fld a) (fld b) (fld c)) s = some z ∧
      z.toInt = (s.regs[a].toInt + s.regs[b].toInt).bmod 65536) ∧
    (∃ z : Word, resultOf (.sub (fld a) (fld b) (fld c)) s = some z ∧
      z.toInt = (s.regs[a].toInt - s.regs[b].toInt).bmod 65536) ∧
    (∃ z : Word, resultOf (.mul (fld a) (fld b) (fld c)) s = some z ∧
      z.toInt = (s.regs[a].toInt * s.regs[b].toInt).bmod 65536)

/-- The algebraic facts of ADD, SUB and MUL, of the values the instructions leave in their destination
(41_arithmetic.md R96). -/
def Obligations.ArithmeticAlgebraModulo65536 : Prop :=
  ∃ add sub mul not : Word → Word → Word,
    (∀ x y, computed .add x y = some (add x y) ∧ computed .sub x y = some (sub x y) ∧
      computed .mul x y = some (mul x y) ∧ computed .not x y = some (not x y)) ∧
    (∀ x y, add x y = add y x ∧ mul x y = mul y x) ∧
    (∀ x y w, add (add x y) w = add x (add y w) ∧ mul (mul x y) w = mul x (mul y w) ∧
      mul x (add y w) = add (mul x y) (mul x w)) ∧
    (∀ x, add x 0 = x ∧ mul x 1 = x ∧ sub x x = 0 ∧ (add x (not x 0)).toNat = 65535 ∧
      sub 0 x = add (not x 0) 1) ∧
    (∀ x y, sub x y = add x (sub 0 y))

/-- The bitwise facts, of the values the instructions leave in their destination (42_logical.md R104). -/
def Obligations.BitwiseAlgebra : Prop :=
  ∃ and or xor not add mul : Word → Word → Word,
    (∀ x y, computed .and x y = some (and x y) ∧ computed .or x y = some (or x y) ∧
      computed .xor x y = some (xor x y) ∧ computed .not x y = some (not x y) ∧
      computed .add x y = some (add x y) ∧ computed .mul x y = some (mul x y)) ∧
    (∀ x y, and x y = and y x ∧ or x y = or y x ∧ xor x y = xor y x) ∧
    (∀ x y w, and (and x y) w = and x (and y w) ∧ or (or x y) w = or x (or y w) ∧
      xor (xor x y) w = xor x (xor y w)) ∧
    (∀ x, not (not x 0) 0 = x ∧ xor x x = 0 ∧ xor x 0xFFFF = not x 0) ∧
    (∀ x y, not (and x y) 0 = or (not x 0) (not y 0) ∧ add x y = add (xor x y) (mul (and x y) 2))

/-- The idioms of 30_encoding.md R66: copy, clear, all ones, two's-complement negation and left shift, each with the
whole register file after it. -/
def Obligations.IdiomsDoWhatTheyAreFor : Prop :=
  ∀ (r k d : Fin 16) (s : State),
    (∃ t : State, exec (.or (fld r) (fld r) (fld d)) s = .next t ∧ t.regs = s.regs.set d s.regs[r]) ∧
    (∃ t : State, exec (.and (fld r) (fld r) (fld d)) s = .next t ∧ t.regs = s.regs.set d s.regs[r]) ∧
    (∃ t : State, exec (.xor (fld d) (fld d) (fld d)) s = .next t ∧ t.regs = s.regs.set d 0) ∧
    (∃ t : State, exec (.sub (fld d) (fld d) (fld d)) s = .next t ∧ t.regs = s.regs.set d 0) ∧
    (∃ t : State, exec (.loadImmediate (fld d) (fld 0) (fld 0)) s = .next t ∧ t.regs = s.regs.set d 0) ∧
    (∃ t u : State, exec (.loadImmediate (fld d) (fld 0) (fld 0)) s = .next t ∧
      exec (.not (fld d) (fld 0) (fld d)) t = .next u ∧ u.regs = s.regs.set d 0xFFFF) ∧
    (s.regs[k] = 0 → ∃ t : State, exec (.sub (fld k) (fld r) (fld d)) s = .next t ∧
      t.regs = s.regs.set d (-s.regs[r])) ∧
    (∀ n : Nat, n ≤ 15 → s.regs[k].toNat = 2 ^ n → ∃ t : State, exec (.mul (fld r) (fld k) (fld d)) s = .next t ∧
      t.regs = s.regs.set d (s.regs[r] <<< n))

/-! ### The host's operations, reset and rejection -/

/-- Bulk replace: with exactly 16 elements each is stored modulo 2^16 in the register of its index, all in one step, and
no result value is returned; with any other number it is rejected and the file left unchanged (10_state.md R27). -/
def Obligations.BulkReplaceLoadsAllOrRejects : Prop :=
  ∀ (s : State) (values : List Nat) (rest : List Command), s.pending = .replaceAll values :: rest →
    (values.length = 16 → ∃ f : RegFile,
      (∀ (k : Fin 16) (v : Nat), values[k.val]? = some v → f[k].toNat = v % 65536) ∧
      step s = .next { regs := f, pending := rest, response := .replaced }) ∧
    (values.length ≠ 16 → step s = .next { s with pending := rest, response := .rejected .invalidRegisterSet })

/-- Snapshot returns the 16 current values in index order and changes nothing; two snapshots with no write between return
the same values (10_state.md R28). That an execute's own snapshot is of the registers after its write is the spec's
decision D19. -/
def Obligations.SnapshotReturnsTheRegisters : Prop :=
  (∀ (s : State) (rest : List Command), s.pending = .snapshot :: rest →
    step s = .next { s with pending := rest, response := .snapshot s.regs }) ∧
  (∀ (s : State) (rest : List Command), s.pending = .snapshot :: .snapshot :: rest →
    ∃ t u : State, step s = .next t ∧ step t = .next u ∧ u.response = t.response) ∧
  (∀ (i : Instr) (s t : State) (f : RegFile), exec i s = .next t → t.response.snap = some f → f = t.regs)

/-- Reset may come at any step and puts every register to 0, together, whatever the registers held
(70_reset_and_hazards.md R150). That the operations still to be presented stay, and that a reset step returns nothing,
is the model's choice (log entries 1, 2 and 4). -/
def Obligations.ResetClearsEveryRegister : Prop :=
  ∀ (s : State) (rest : List Command), s.pending = .reset :: rest →
    ∃ t : State, step s = .next t ∧ (∀ k : Fin 16, t.regs[k] = 0) ∧ t.pending = rest ∧ t.response = .none

/-- The reset value of every register is 0, and the read port answers it (10_state.md R35). -/
def Obligations.ResetStateReadsZero : Prop :=
  ∀ k : Fin 16, State.reset.regs[k] = 0 ∧ State.reset.regs.read (fld k) = .ok 0

/-- A register that no operation has written since reset holds 0, and reading it returns 0, not a fault: whatever the
operations presented from the reset registers on, after any number of steps of which none writes the register
(10_state.md R36, with the spec's decision D21; the presented list is the model's field, log entry 1). -/
def Obligations.UnwrittenRegisterReadsZero : Prop :=
  ∀ (n : Nat) (s : State) (k : Fin 16), s.regs = State.reset.regs →
    (∀ cmd ∈ s.pending.take n, ¬cmd.Writes k) →
      ∃ t : State, core.run n s = .next t ∧ t.regs[k] = 0 ∧ t.regs.read (fld k) = .ok 0

/-- A step with no operation changes no register and produces no result: with `cmd = NONE`, and when the host presents
no further operation (10_state.md R38, 70_reset_and_hazards.md R157; that the model steps on there is log entry 1). -/
def Obligations.StepWithoutOperationChangesNothing : Prop :=
  (∀ s : State, s.pending = [] → step s = .next { s with response := .none }) ∧
  (∀ (s : State) (rest : List Command), s.pending = .idle :: rest →
    step s = .next { s with pending := rest, response := .none }) ∧
  Response.none.result = none ∧ Response.none.status = none

/-- A rejected operation changes no register, returns no result, and reports its kind (60_exceptions.md R131). -/
def Obligations.RejectionLeavesThePriorState : Prop :=
  ∀ (s t : State) (kind : ErrorKind), step s = .next t → t.response = .rejected kind →
    t.regs = s.regs ∧ t.response.result = none ∧ t.response.status = some kind.status ∧
      (kind = .invalidInstruction ∨ kind = .invalidRegisterSet)

/-- After a rejection the next operation runs exactly as if the rejected one had not been presented
(60_exceptions.md R138). -/
def Obligations.RejectedOperationLeavesNoTrace : Prop :=
  ∀ (s t : State) (cmd : Command) (rest : List Command) (kind : ErrorKind),
    s.pending = cmd :: rest → step s = .next t → t.response = .rejected kind →
      step t = step { s with pending := rest }

/-- The status codes: OK = 0, InvalidInstruction = 1, InvalidRegisterSet = 2, OutOfRange = 3, and each kind reports the
status of its own name (60_exceptions.md R130, decision D11). -/
def Obligations.StatusCodesAreNumbered : Prop :=
  Status.ok.code = 0 ∧ ErrorKind.invalidInstruction.status.code = 1 ∧
  ErrorKind.invalidRegisterSet.status.code = 2 ∧ ErrorKind.outOfRange.status.code = 3

/-- Only an execute, a bulk replace and reset change a register (10_state.md R37, 70_reset_and_hazards.md R150). -/
def Obligations.OnlyWritesChangeRegisters : Prop :=
  ∀ s t : State, step s = .next t → t.regs ≠ s.regs →
    (∃ (op a b c : Int) (rest : List Command), s.pending = .execute op a b c :: rest) ∨
    (∃ (values : List Nat) (rest : List Command), s.pending = .replaceAll values :: rest) ∨
    (∃ rest : List Command, s.pending = .reset :: rest)

/-- At the hardware signals no input is rejected and no step stops; the operation is the one `cmd` selects, and the
outputs are those of the step: `snap` the registers after it, `z` and `status` present only where the step produces
them (10_state.md R38, R39). That reset comes before `cmd` is the model's choice (log entry 4), and so is that a step
with `cmd = NONE` has no status: the spec says only that it produces no result (log entry 2). -/
def Obligations.SignalStepsAreServed : Prop :=
  ∀ (i : Inputs) (s : State), ∃ t : State, stepSignals i s = .next t ∧ t.outputs.snap = t.regs ∧
    (∀ kind : ErrorKind, t.response ≠ .rejected kind) ∧
    (i.rst = true → ∀ k : Fin 16, t.regs[k] = 0) ∧
    (i.rst = false → i.cmd = .none → t.regs = s.regs ∧ t.outputs.z = none ∧ t.outputs.status = none) ∧
    (i.rst = false → i.cmd = .execute →
      stepSignals i s = exec (instrOfOpcode i.op i.a.toNat i.b.toNat i.c.toNat) s ∧
      t.outputs.z.isSome = true ∧ t.outputs.status = some .ok) ∧
    (i.rst = false → i.cmd = .replaceAll → t.regs = i.ld ∧ t.outputs.z = none ∧ t.outputs.status = some .ok) ∧
    (i.rst = false → i.cmd = .snapshot → t.regs = s.regs ∧ t.outputs.z = none ∧ t.outputs.status = some .ok)

/-! ### The whole machine -/

/-- The response shown after every step agrees with the state: whatever the state before, the registers it shows are the
registers after the step, and OutOfRange is never among the errors (10_state.md R28, R38; 60_exceptions.md R134). -/
def Obligations.StepKeepsTheResponseCoherent : Prop :=
  ∀ s t : State, s.Coherent → step s = .next t → t.Coherent

/-- The reset state is coherent. -/
def Obligations.ResetStateIsCoherent : Prop :=
  State.reset.Coherent

/-- No run stops: from every state, any number of steps ends in a state, with no fault and no refusal
(60_exceptions.md R131, R134; 44_invalid.md R121). -/
def Obligations.EveryRunIsSafe : Prop :=
  ∀ (n : Nat) (s : State), SafeRun n s

/-- One execute, as the model runs it, is the whole pseudocode of 40_execute.md section 2 on a map from 16 indices to
numbers: the same rejection, the same result and the same map after it, for every tuple of integers. -/
def Obligations.ExecuteRefinesThePseudocode : Prop :=
  ∀ (s : State) (op a b c : Int) (rest : List Command), s.pending = .execute op a b c :: rest →
    ∃ t : State, step s = .next t ∧ t.pending = rest ∧
      match Reference.execute op a b c s.regs.asMap with
      | .error kind => t.response = .rejected kind ∧ t.regs = s.regs
      | .ok (z, x') => ∃ w : Word, t.response = .executed w t.regs ∧ w.toNat = z ∧ t.regs.asMap = x'

/-- The operations take effect whole, in the one order in which they are presented, each seeing exactly the effects of
those before it: a run that serves every presented operation ends with the registers, and gives the host the answers,
of the reference that serves them one after another. It holds of every list of operations, so of every serial order of
several callers' operations (20_memory.md R46, R47; 70_reset_and_hazards.md R157). That the operations stand in a list of
the state is the model's choice (log entry 1), and so is that an idle step and a reset answer no status (log entries 2
and 4). -/
def Obligations.RunServesOperationsInOrder : Prop :=
  ∀ s : State, ∃ t : State, core.run s.pending.length s = .next t ∧ t.pending = [] ∧
    t.regs.asMap = (Reference.run s.pending s.regs.asMap).1 ∧
    answers s.pending.length s = (Reference.run s.pending s.regs.asMap).2

/-! ### The assembly syntax -/

/-- The spec's example lines assemble to its words (30_encoding.md R63, decision D4). -/
def Obligations.AssemblyExamplesGiveTheirWords : Prop :=
  (assembleLine "SUB r0, r1, r2".toList).map encode = .ok 0x1012 ∧
  (assembleLine "LOAD_IMMEDIATE r0, #9".toList).map encode = .ok 0xF090 ∧
  (assembleLine ".insn 7, 0, 0, 0".toList).map encode = .ok 0x7000

/-- The assembler never wraps an operand (30_encoding.md R64). In each place an operand text is accepted exactly with the
number it writes, when that is in [0,15]; any other number, 16 or more or below 0, is refused with the kind of the
place, and a text that is no operand of the place is refused too. A line is accepted exactly as the instruction whose
tuple its mnemonic and the numbers of its operands stand for (R63), each of them in [0,15]. Which number a text writes
where R62 leaves it open (a minus sign, the bases of a `.insn` number), how a line splits into its texts, and the
refusal of a text that is no operand, are the model's choice (log entry 9); the syntax is the spec's decision D4. -/
def Obligations.AssemblerNeverWrapsAnOperand : Prop :=
  (∀ (p : Reference.OperandPlace) (t : List Char),
    (∀ k : Fin 16, p.read t = .ok k ↔ p.number t = some (fld k)) ∧
    (∀ n : Int, p.number t = some n → ¬(0 ≤ n ∧ n ≤ 15) → p.read t = .error p.outOfRange) ∧
    (p.number t = none → p.read t = .error .malformedOperand)) ∧
  (∀ (line : List Char) (i : Instr), assembleLine line = .ok i ↔
    i.WellFormed ∧ ∃ (places : List Reference.OperandPlace) (numbers : List Int),
      Reference.operandPlaces (lineMnemonic line) (lineOperands line).length = some places ∧
      List.zipWith Reference.OperandPlace.number places (lineOperands line) = numbers.map some ∧
      Reference.tupleOf i = Reference.lineTuple (lineMnemonic line) numbers)

/-- The assembler names the first line it refuses, and otherwise gives one instruction a line (30_encoding.md R64, R65).
That lines are numbered from 1 is the model's choice (log entry 9), and the syntax is the spec's decision D4. -/
def Obligations.AssemblerNamesTheRefusedLine : Prop :=
  (∀ (before after : List (List Char)) (line : List Char) (is : List Instr) (e : AsmError),
    assembleProgram before = .ok is → assembleLine line = .error e →
      assembleProgram (before ++ line :: after) = .error (before.length + 1, e)) ∧
  (∀ (lines : List (List Char)) (is : List Instr), assembleProgram lines = .ok is →
    is.length = lines.length ∧ ∀ n : Nat, (lines[n]?).map assembleLine = (is[n]?).map .ok)

/-- What the assembler refuses of a line (30_encoding.md R64): a wrong number of operands for the mnemonic; a number
outside [0,15], with the kind of its place when the operands before it are in range, and always with some refusal.
A line whose first word is no mnemonic is refused as well, which is the model's choice (log entry 9), as is that the first
operand at fault gives the kind; the syntax is the spec's decision D4. -/
def Obligations.AssemblerRefusesByForm : Prop :=
  ∀ line : List Char,
    (Reference.isMnemonic (lineMnemonic line) = false → assembleLine line = .error .unknownMnemonic) ∧
    (Reference.isMnemonic (lineMnemonic line) = true →
      Reference.operandPlaces (lineMnemonic line) (lineOperands line).length = none →
        assembleLine line = .error .wrongOperandCount) ∧
    (∀ (places : List Reference.OperandPlace) (j : Nat) (p : Reference.OperandPlace) (t : List Char) (n : Int),
      Reference.operandPlaces (lineMnemonic line) (lineOperands line).length = some places →
      places[j]? = some p → (lineOperands line)[j]? = some t → p.number t = some n → ¬(0 ≤ n ∧ n ≤ 15) →
        (∃ e : AsmError, assembleLine line = .error e) ∧
        ((∀ (h : Nat) (q : Reference.OperandPlace) (u : List Char), h < j → places[h]? = some q →
            (lineOperands line)[h]? = some u → ∃ k : Fin 16, q.number u = some (fld k)) →
          assembleLine line = .error p.outOfRange))
end

