-- ==== Sys2Proof/Laws/Assembly.lean ====
section
/-! SUPPORT. The assembler's readers of numbers against the place values of the digits, and everything `inField` can do. -/

namespace Sys2Proof.Machine

theorem digitValue_ofNat (n : Fin 128) : ∀ base ∈ [2, 10, 16],
    digitValue base (Char.ofNat n) = Reference.digit base (Char.ofNat n) := by
  revert n
  decide +kernel

theorem digitsOf_ascii {letters : List Char} (hl : ∀ ch ∈ letters, ch.toNat < 128) (base : Nat) :
    ∀ ch ∈ Reference.digitsOf letters base, ch.toNat < 128 := by
  intro ch hm
  obtain h | h := List.mem_append.1 (List.mem_of_mem_take hm)
  · simp at h
    rcases h with rfl | rfl | rfl | rfl | rfl | rfl | rfl | rfl | rfl | rfl <;> decide
  · exact hl ch h

theorem digitValue_eq_digit {base : Nat} (hb : base ∈ [2, 10, 16]) (ch : Char) :
    digitValue base ch = Reference.digit base ch := by
  by_cases h : ch.toNat < 128
  · simpa only [Char.ofNat_toNat] using digitValue_ofNat ⟨ch.toNat, h⟩ base hb
  · have absent (letters : List Char) (hl : ∀ ch ∈ letters, ch.toNat < 128) :
        (Reference.digitsOf letters base).idxOf? ch = none :=
      List.idxOf?_eq_none_iff.2 fun hm => h (digitsOf_ascii hl base ch hm)
    rw [Reference.digit, absent _ (by simp), absent _ (by simp)]
    have : base ≤ 16 := by simp at hb; omega
    simp only [digitValue, Option.or_none, ite_eq_right_iff, reduceCtorEq, imp_false]
    split <;> (try split) <;> (try split) <;> omega

theorem digitsFrom_eq_placeValue {base : Nat} (hb : base ∈ [2, 10, 16]) (t : List Char) (acc : Nat) :
    digitsFrom base acc t = (Reference.placeValue base t).map fun v => acc * base ^ t.length + v := by
  induction t generalizing acc with
  | nil => simp [digitsFrom, Reference.placeValue]
  | cons ch rest ih =>
    simp only [digitsFrom, Reference.placeValue, digitValue_eq_digit hb]
    cases Reference.digit base ch with
    | none => rfl
    | some d =>
      simp only [ih]
      cases Reference.placeValue base rest with
      | none => rfl
      | some v => simp [pow_succ]; ring

/-- A run of digits has the value of its numeral. -/
theorem digits_eq_numeral {base : Nat} (hb : base ∈ [2, 10, 16]) (t : List Char) :
    digits base t = Reference.numeral base t := by
  simp [digits, Reference.numeral, digitsFrom_eq_placeValue hb]

/-- Everything `inField` can do: it accepts a number in [0,15] as it is, and refuses any other and a text that is none. -/
theorem inField_eq (err : AsmError) (t : List Char) (value : List Char → Option Nat) :
    inField err t value =
      match Reference.signedNumber value t with
      | none => .error .malformedOperand
      | some n => if h : 0 ≤ n ∧ n ≤ 15 then .ok ⟨n.toNat, by omega⟩ else .error err := by
  unfold inField Reference.signedNumber
  by_cases hn : t.head? = some '-'
  · simp only [hn, beq_self_eq_true, if_true]
    cases value t.tail with
    | none => rfl
    | some n =>
      by_cases h : n = 0
      · subst h; rfl
      · simp [h]
  · have : (t.head? == some '-') = false := by simpa using hn
    simp only [hn, this, if_false]
    cases hv : value t with
    | none => simp [hv]
    | some n =>
      by_cases h : n < 16
      · simp [hv, h, Nat.le_of_lt_succ h]
      · simp [hv, h]; omega

end Sys2Proof.Machine
end

