-- ==== Sys2Proof/Laws/Decode.lean ====
section
/-! SUPPORT. The packed word's fields and the validation of a tuple. -/

namespace Sys2Proof

theorem validOperands_iff (a b c : Int) :
    validOperands a b c = true ↔ FieldInRange a ∧ FieldInRange b ∧ FieldInRange c := by
  simp [validOperands, FieldInRange, and_assoc]

theorem validTuple_iff (op a b c : Int) :
    validTuple op a b c = true ↔ FieldInRange op ∧ FieldInRange a ∧ FieldInRange b ∧ FieldInRange c := by
  simp [validTuple, validOperands_iff, FieldInRange]

theorem wellFormed_iff_validOperands (i : Instr) :
    i.WellFormed ↔ validOperands i.fieldA i.fieldB i.fieldC = true :=
  (validOperands_iff _ _ _).symm

/-- Unpacking a packed tuple gives the tuple back. -/
theorem unpack_pack (t : FieldTuple) : unpackWord (packWord t) = t := by
  obtain ⟨op, a, b, c⟩ := t
  simp only [unpackWord, packWord, FieldTuple.mk.injEq]
  refine ⟨?_, ?_, ?_, ?_⟩ <;>
  · ext i hi
    simp only [BitVec.getElem_extractLsb', Config.opLow, Config.aLow, Config.bLow, Config.cLow, BitVec.getLsbD_append]
    have : i = 0 ∨ i = 1 ∨ i = 2 ∨ i = 3 := by omega
    rcases this with rfl | rfl | rfl | rfl <;> simp [BitVec.getLsbD_eq_getElem]

/-- Packing a word's fields gives the word back. -/
theorem pack_unpack (w : Word) : packWord (unpackWord w) = w := by
  apply BitVec.eq_of_toNat_eq
  have h := w.isLt
  simp only [unpackWord, packWord, BitVec.toNat_append, BitVec.extractLsb'_toNat, Config.opLow, Config.aLow,
    Config.bLow, Config.cLow, Nat.shiftRight_eq_div_pow]
  have e (u v : Nat) (hv : v < 2 ^ 4) : (u <<< 4 ||| v) = u * 16 + v := by
    rw [Nat.shiftLeft_eq, Nat.mul_comm, ← Nat.two_pow_add_eq_or_of_lt hv u, Nat.mul_comm]
  rw [e _ _ (Nat.mod_lt _ (by decide)), e _ _ (Nat.mod_lt _ (by decide)), e _ _ (Nat.mod_lt _ (by decide))]
  omega

end Sys2Proof
end

