-- ==== Sys2Proof/Laws/RegFile.lean ====
section
/-! SUPPORT. The register file's laws (read after write, a write leaves the other cells), the 16-bit mask, and one
lemma per ALU function that says its value as a number or bit by bit. -/

namespace Sys2Proof.Machine

@[simp] theorem mask16_toNat_cast (w : Word) : mask16 (w.toNat : Int) = w := by
  simp [mask16]

theorem mask16_toNat (v : Int) : ((mask16 v).toNat : Int) = v % 65536 := by
  simp only [mask16, BitVec.toNat_ofInt]
  omega

theorem mask16_natCast (v : Nat) : (mask16 (v : Int)).toNat = v % 65536 := by
  have := mask16_toNat (v : Int)
  omega

@[simp] theorem read_fld (f : RegFile) (k : Fin 16) : f.read (fld k) = .ok f[k] := by
  have : 0 ≤ fld k ∧ fld k ≤ 15 := by simp only [fld]; omega
  simp [RegFile.read, this, fld]

theorem read_outside (f : RegFile) {i : Int} (h : ¬(0 ≤ i ∧ i ≤ 15)) : f.read i = .error .outOfRange := by
  simp [RegFile.read, h]

@[simp] theorem write_fld (f : RegFile) (k : Fin 16) (v : Int) : f.write (fld k) v = .ok (f.set k (mask16 v)) := by
  have : 0 ≤ fld k ∧ fld k ≤ 15 := by simp only [fld]; omega
  simp [RegFile.write, this, fld]

theorem write_outside (f : RegFile) {i : Int} (v : Int) (h : ¬(0 ≤ i ∧ i ≤ 15)) :
    f.write i v = .error .outOfRange := by
  simp [RegFile.write, h]

/-- Reading the cell just written gives the value written. -/
@[simp] theorem get_set_same (f : RegFile) (k : Fin 16) (w : Word) : (f.set k w)[k] = w := by
  simp

/-- A write of one cell changes no other cell. -/
theorem get_set_other (f : RegFile) {j k : Fin 16} (w : Word) (h : j ≠ k) : (f.set k w)[j] = f[j] := by
  have : k.val ≠ j.val := fun e => h (Fin.ext e.symm)
  simp [Fin.getElem_fin, this]

/-- Every field in [0,15] is the field of a register index. -/
theorem exists_fld {i : Int} (h : FieldInRange i) : ∃ k : Fin 16, i = fld k :=
  ⟨⟨i.toNat, by obtain ⟨h0, h1⟩ := h; omega⟩, by obtain ⟨h0, h1⟩ := h; simp only [fld]; omega⟩

theorem fld_inRange (k : Fin 16) : FieldInRange (fld k) := by
  simp only [FieldInRange, fld]; omega

theorem fld_injective {j k : Fin 16} (h : fld j = fld k) : j = k := by
  simp only [fld] at h
  exact Fin.ext (by omega)

theorem ofValues_wrong_length {values : List Nat} (h : values.length ≠ 16) :
    RegFile.ofValues values = .error .invalidRegisterSet := by
  simp [RegFile.ofValues, h]

theorem ofValues_get {values : List Nat} (h : values.length = 16) :
    ∃ f, RegFile.ofValues values = .ok f ∧ ∀ k : Fin 16, f[k] = mask16 ((values[k.val]'(by omega) : Nat) : Int) := by
  simp only [RegFile.ofValues, h, dite_true, Except.ok.injEq, exists_eq_left']
  intro k
  simp [Fin.getElem_fin]

theorem aluAdd_toNat (x y : Word) : (aluAdd x y).toNat = (x.toNat + y.toNat) % 65536 := by
  have := mask16_toNat ((x.toNat : Int) + (y.toNat : Int))
  simp only [aluAdd]
  omega

theorem aluSub_toNat (x y : Word) : ((aluSub x y).toNat : Int) = ((x.toNat : Int) - (y.toNat : Int)) % 65536 :=
  mask16_toNat _

theorem aluMul_toNat (x y : Word) : (aluMul x y).toNat = (x.toNat * y.toNat) % 65536 := by
  have := mask16_toNat ((x.toNat : Int) * (y.toNat : Int))
  simp only [aluMul]
  exact_mod_cast this

theorem aluAdd_eq (x y : Word) : aluAdd x y = x + y := by
  apply BitVec.eq_of_toNat_eq
  simp [aluAdd_toNat]

theorem aluMul_eq (x y : Word) : aluMul x y = x * y := by
  apply BitVec.eq_of_toNat_eq
  simp [aluMul_toNat]

theorem aluSub_eq (x y : Word) : aluSub x y = x - y := by
  apply BitVec.eq_of_toNat_eq
  have h := aluSub_toNat x y
  have hx := x.isLt
  have hy := y.isLt
  simp only [BitVec.toNat_sub]
  omega

theorem aluNot_toNat (x : Word) : (aluNot x).toNat = 65535 - x.toNat := by
  simp [aluNot, BitVec.toNat_not]

theorem immediate_fld_toNat (b : Fin 16) : (immediate (fld b)).toNat = b.val := by
  simp only [immediate, fld, Int.toNat_natCast, BitVec.toNat_ofNat]
  omega

end Sys2Proof.Machine
end

