-- ==== Sys2Proof/Laws/State.lean ====
section
/-! SUPPORT. One lemma per field of State per update of the shared operations, and the projections of a response. -/

namespace Sys2Proof.Machine

@[simp] theorem reset_regs : State.reset.regs = Vector.replicate 16 0 := rfl
@[simp] theorem reset_pending : State.reset.pending = [] := rfl
@[simp] theorem reset_response : State.reset.response = .none := rfl

@[simp] theorem reject_regs (s : State) (k : ErrorKind) : (s.reject k).regs = s.regs := rfl
@[simp] theorem reject_pending (s : State) (k : ErrorKind) : (s.reject k).pending = s.pending := rfl
@[simp] theorem reject_response (s : State) (k : ErrorKind) : (s.reject k).response = .rejected k := rfl

theorem takeCommand_nil {s : State} (h : s.pending = []) : s.takeCommand = (.idle, s) := by
  simp [State.takeCommand, h]

theorem takeCommand_cons {s : State} {cmd : Command} {rest : List Command} (h : s.pending = cmd :: rest) :
    s.takeCommand = (cmd, { s with pending := rest }) := by
  simp [State.takeCommand, h]

@[simp] theorem takeCommand_regs (s : State) : s.takeCommand.2.regs = s.regs := by
  unfold State.takeCommand; split <;> rfl

@[simp] theorem takeCommand_response (s : State) : s.takeCommand.2.response = s.response := by
  unfold State.takeCommand; split <;> rfl

@[simp] theorem takeCommand_pending (s : State) : s.takeCommand.2.pending = s.pending.tail := by
  unfold State.takeCommand; split <;> simp_all

@[simp] theorem presentTableWord_regs (s : State) (n w : Nat) : (s.presentTableWord n w).regs = s.regs := rfl
@[simp] theorem presentTableWord_response (s : State) (n w : Nat) :
    (s.presentTableWord n w).response = s.response := rfl

@[simp] theorem outputs_z (s : State) : s.outputs.z = s.response.result := rfl
@[simp] theorem outputs_status (s : State) : s.outputs.status = s.response.status := rfl
@[simp] theorem outputs_snap (s : State) : s.outputs.snap = s.regs := rfl

@[simp] theorem result_none : Response.result .none = none := rfl
@[simp] theorem result_executed (z : Word) (f : RegFile) : (Response.executed z f).result = some z := rfl
@[simp] theorem result_replaced : Response.result .replaced = none := rfl
@[simp] theorem result_snapshot (f : RegFile) : (Response.snapshot f).result = none := rfl
@[simp] theorem result_rejected (k : ErrorKind) : (Response.rejected k).result = none := rfl

@[simp] theorem status_none : Response.status .none = none := rfl
@[simp] theorem status_executed (z : Word) (f : RegFile) : (Response.executed z f).status = some .ok := rfl
@[simp] theorem status_replaced : Response.status .replaced = some .ok := rfl
@[simp] theorem status_snapshot (f : RegFile) : (Response.snapshot f).status = some .ok := rfl
@[simp] theorem status_rejected (k : ErrorKind) : (Response.rejected k).status = some k.status := rfl

@[simp] theorem snap_none : Response.snap .none = none := rfl
@[simp] theorem snap_executed (z : Word) (f : RegFile) : (Response.executed z f).snap = some f := rfl
@[simp] theorem snap_replaced : Response.snap .replaced = none := rfl
@[simp] theorem snap_snapshot (f : RegFile) : (Response.snapshot f).snap = some f := rfl
@[simp] theorem snap_rejected (k : ErrorKind) : (Response.rejected k).snap = none := rfl

end Sys2Proof.Machine
end

