-- ==== Sys2Proof/Laws/Datapath.lean ====
section
/-! SUPPORT. The shared datapath said once: what it does on fields in range, by class, and on fields out of range; and
`exec` as the datapath of the instruction's class. -/

namespace Sys2Proof.Machine

theorem validOperands_fld (a b c : Fin 16) : validOperands (fld a) (fld b) (fld c) = true :=
  (validOperands_iff _ _ _).2 ⟨fld_inRange a, fld_inRange b, fld_inRange c⟩

/-- Fields out of range: the operation is rejected with InvalidInstruction. -/
theorem runDatapath_rejects (cls : OpClass) {a b c : Int} (s : State)
    (h : ¬(FieldInRange a ∧ FieldInRange b ∧ FieldInRange c)) :
    runDatapath cls a b c s = .next (s.reject .invalidInstruction) := by
  have : validOperands a b c = false := by
    rw [Bool.eq_false_iff]
    exact fun e => h ((validOperands_iff a b c).1 e)
  simp [runDatapath, this]

/-- The registers after an execute of a class with fields in range. -/
def regsAfter (cls : OpClass) (a b c : Fin 16) (f : RegFile) : RegFile :=
  match cls with
  | .invalid => f
  | .loadImmediate => f.set a (resultMux .loadImmediate f[a] f[b] (fld b))
  | cls => f.set c (resultMux cls f[a] f[b] (fld b))

/-- Fields in range: the datapath answers the next state, with the result and the registers after the write. -/
theorem runDatapath_serves (cls : OpClass) (a b c : Fin 16) (s : State) :
    runDatapath cls (fld a) (fld b) (fld c) s =
      .next { s with
        regs := regsAfter cls a b c s.regs
        response := .executed (resultMux cls s.regs[a] s.regs[b] (fld b)) (regsAfter cls a b c s.regs) } := by
  cases cls <;>
    simp only [runDatapath, validOperands_fld, datapathNets, commitNets, read_fld, write_fld, writeEnable, writeAddress,
      mask16_toNat_cast, regsAfter] <;> rfl

/-- Everything the datapath can do. -/
theorem runDatapath_cases (cls : OpClass) (a b c : Int) (s : State) :
    (¬(FieldInRange a ∧ FieldInRange b ∧ FieldInRange c) ∧
      runDatapath cls a b c s = .next (s.reject .invalidInstruction)) ∨
    (∃ ka kb kc : Fin 16, a = fld ka ∧ b = fld kb ∧ c = fld kc ∧
      runDatapath cls a b c s =
        .next { s with
          regs := regsAfter cls ka kb kc s.regs
          response := .executed (resultMux cls s.regs[ka] s.regs[kb] (fld kb)) (regsAfter cls ka kb kc s.regs) }) := by
  by_cases h : FieldInRange a ∧ FieldInRange b ∧ FieldInRange c
  · obtain ⟨ha, hb, hc⟩ := h
    obtain ⟨ka, rfl⟩ := exists_fld ha
    obtain ⟨kb, rfl⟩ := exists_fld hb
    obtain ⟨kc, rfl⟩ := exists_fld hc
    exact .inr ⟨ka, kb, kc, rfl, rfl, rfl, runDatapath_serves cls ka kb kc s⟩
  · exact .inl ⟨h, runDatapath_rejects cls s h⟩

/-- Every meaning is the datapath of its instruction's class on its fields. -/
theorem exec_eq_runDatapath (i : Instr) (s : State) :
    exec i s = runDatapath i.cls i.fieldA i.fieldB i.fieldC s := by
  cases i <;> rfl

/-- Everything `exec` can do: it rejects an ill-formed instruction, and serves a well-formed one. -/
theorem exec_cases (i : Instr) (s : State) :
    (¬i.WellFormed ∧ exec i s = .next (s.reject .invalidInstruction)) ∨
    (∃ ka kb kc : Fin 16, i.fieldA = fld ka ∧ i.fieldB = fld kb ∧ i.fieldC = fld kc ∧
      exec i s =
        .next { s with
          regs := regsAfter i.cls ka kb kc s.regs
          response := .executed (resultMux i.cls s.regs[ka] s.regs[kb] (fld kb)) (regsAfter i.cls ka kb kc s.regs) }) := by
  rw [exec_eq_runDatapath]
  exact runDatapath_cases _ _ _ _ s

end Sys2Proof.Machine
end

