-- ==== Sys2Proof/Laws/PerInstr.lean ====
section
/-! SUPPORT. Per-instruction facts: each constructor of Instr is the row of the opcode map at its own opcode. -/

namespace Sys2Proof.Laws.OpcodeRow

/-- The opcode map at the instruction's opcode, with the instruction's fields, is the instruction, and the opcode is a
4-bit value. -/
def Statement (i : Instr) : Prop :=
  instrOfOpcode (BitVec.ofNat 4 i.opcode) i.fieldA i.fieldB i.fieldC = i ∧ i.opcode < 16

theorem add (a b c : Int) : Statement (.add a b c) := ⟨rfl, Nat.le_of_ble_eq_true rfl⟩
theorem sub (a b c : Int) : Statement (.sub a b c) := ⟨rfl, Nat.le_of_ble_eq_true rfl⟩
theorem mul (a b c : Int) : Statement (.mul a b c) := ⟨rfl, Nat.le_of_ble_eq_true rfl⟩
theorem and (a b c : Int) : Statement (.and a b c) := ⟨rfl, Nat.le_of_ble_eq_true rfl⟩
theorem or (a b c : Int) : Statement (.or a b c) := ⟨rfl, Nat.le_of_ble_eq_true rfl⟩
theorem xor (a b c : Int) : Statement (.xor a b c) := ⟨rfl, Nat.le_of_ble_eq_true rfl⟩
theorem not (a b c : Int) : Statement (.not a b c) := ⟨rfl, Nat.le_of_ble_eq_true rfl⟩
theorem invalid0111 (a b c : Int) : Statement (.invalid0111 a b c) := ⟨rfl, Nat.le_of_ble_eq_true rfl⟩
theorem invalid1000 (a b c : Int) : Statement (.invalid1000 a b c) := ⟨rfl, Nat.le_of_ble_eq_true rfl⟩
theorem invalid1001 (a b c : Int) : Statement (.invalid1001 a b c) := ⟨rfl, Nat.le_of_ble_eq_true rfl⟩
theorem invalid1010 (a b c : Int) : Statement (.invalid1010 a b c) := ⟨rfl, Nat.le_of_ble_eq_true rfl⟩
theorem invalid1011 (a b c : Int) : Statement (.invalid1011 a b c) := ⟨rfl, Nat.le_of_ble_eq_true rfl⟩
theorem invalid1100 (a b c : Int) : Statement (.invalid1100 a b c) := ⟨rfl, Nat.le_of_ble_eq_true rfl⟩
theorem invalid1101 (a b c : Int) : Statement (.invalid1101 a b c) := ⟨rfl, Nat.le_of_ble_eq_true rfl⟩
theorem invalid1110 (a b c : Int) : Statement (.invalid1110 a b c) := ⟨rfl, Nat.le_of_ble_eq_true rfl⟩
theorem loadImmediate (a b c : Int) : Statement (.loadImmediate a b c) := ⟨rfl, Nat.le_of_ble_eq_true rfl⟩

end Sys2Proof.Laws.OpcodeRow
end

