-- ==== Sys2Proof/Laws/Step.lean ====
section
/-! SUPPORT. What one step does, by the presented operation. -/

namespace Sys2Proof.Machine

theorem step_nil {s : State} (h : s.pending = []) : step s = .next { s with response := .none } := by
  simp [step, takeCommand_nil h, runCommand, runIdle]

theorem step_cons {s : State} {cmd : Command} {rest : List Command} (h : s.pending = cmd :: rest) :
    step s = runCommand cmd { s with pending := rest } := by
  simp [step, takeCommand_cons h]

theorem decodeTuple_ok {op a b c : Int} (h : validTuple op a b c = true) :
    decodeTuple op a b c = .ok (instrOfOpcode (BitVec.ofNat 4 op.toNat) a b c) := by
  simp [decodeTuple, h]

theorem runExecute_rejects {op a b c : Int} (s : State) (h : validTuple op a b c = false) :
    runExecute op a b c s = .next (s.reject .invalidInstruction) := by
  simp [runExecute, decodeTuple, h]

theorem runExecute_serves {op a b c : Int} (s : State) (h : validTuple op a b c = true) :
    runExecute op a b c s = exec (instrOfOpcode (BitVec.ofNat 4 op.toNat) a b c) s := by
  simp [runExecute, decodeTuple, h]

/-- Every instruction answers a next state, whatever its fields. -/
theorem exec_answers (i : Instr) (s : State) : ∃ t, exec i s = .next t := by
  obtain ⟨-, h⟩ | ⟨_, _, _, -, -, -, h⟩ := exec_cases i s <;> exact ⟨_, h⟩

/-- Every presented operation answers a next state. -/
theorem runCommand_answers (cmd : Command) (s : State) : ∃ t, runCommand cmd s = .next t := by
  cases cmd with
  | idle => exact ⟨_, rfl⟩
  | execute op a b c =>
    cases h : validTuple op a b c
    · exact ⟨_, runExecute_rejects s h⟩
    · simpa [runCommand, runExecute_serves s h] using exec_answers _ s
  | replaceAll values =>
    simp only [runCommand, runReplaceAll]
    split <;> exact ⟨_, rfl⟩
  | snapshot => exact ⟨_, rfl⟩
  | reset => exact ⟨_, rfl⟩

/-- A run whose first step answers `t` goes on from `t`. -/
theorem run_succ {s t : State} (n : Nat) (h : step s = .next t) : core.run (n + 1) s = core.run n t := by
  have h' : core.step s = .next t := h
  simp only [Host.Core.run, h']

end Sys2Proof.Machine
end

