-- ==== Sys2Proof/Tests/Slice0.lean ====
section
/-! SUPPORT. Tests: the refusal of ill-formed terms, words written out from the opcode map, single steps with results
from the spec's own examples and vectors, and witnesses for the hypotheses of the statements. -/

namespace Sys2Proof.Tests

open Sys2Proof.Machine

/-- A state with the given first register values and the rest 0, nothing presented. -/
def start (values : List Nat) : State :=
  { State.reset with regs := Vector.ofFn fun k => BitVec.ofNat 16 (values.getD k.val 0) }

/-- A state with operations presented. -/
def presented (values : List Nat) (cmds : List Command) : State :=
  { start values with pending := cmds }

/-- The registers after an outcome that is a next state, as numbers. -/
def regsOf : Host.Outcome State Fault Refusal → Option (List Nat)
  | .next t => some (t.regs.toList.map BitVec.toNat)
  | .fault _ => none
  | .refused _ => none

/-- The answer of an outcome that is a next state. -/
def answerOf : Host.Outcome State Fault Refusal → Option Answer
  | .next t => some t.response.answer
  | .fault _ => none
  | .refused _ => none

/-- The next state itself; the start state where there is none. -/
def stateOf (s : State) : Host.Outcome State Fault Refusal → State
  | .next t => t
  | .fault _ => s
  | .refused _ => s

/-- The list padded with zeros to 16 values. -/
def padded (values : List Nat) : List Nat :=
  values ++ List.replicate (16 - values.length) 0

/-! ### WellFormed refuses a term for each of its checks (40_execute.md R71) -/

theorem test_illFormed_a_above : ¬(Instr.add 16 0 0).WellFormed := by decide
theorem test_illFormed_a_below : ¬(Instr.sub (-1) 0 0).WellFormed := by decide
theorem test_illFormed_b_above : ¬(Instr.not 0 200 1).WellFormed := by decide
theorem test_illFormed_b_below : ¬(Instr.and 0 (-1) 0).WellFormed := by decide
theorem test_illFormed_c_above : ¬(Instr.loadImmediate 0 0 16).WellFormed := by decide
theorem test_illFormed_c_below : ¬(Instr.invalid0111 0 0 (-1)).WellFormed := by decide
theorem test_wellFormed_bounds : (Instr.xor 15 0 15).WellFormed := by decide

/-! ### Every constructor from a word written out from 30_encoding.md R52 and R56; the words are those of
95_test_vectors.md (programs P2 to P6, sections 1 and 2.5) -/

theorem test_decode_add : decodeWord 0b0000_0010_0010_0011 = .add 2 2 3 := by decide
theorem test_decode_sub : decodeWord 0b0001_0000_0001_0010 = .sub 0 1 2 := by decide
theorem test_decode_mul : decodeWord 0b0010_0001_0011_0000 = .mul 1 3 0 := by decide
theorem test_decode_and : decodeWord 0b0011_0001_0100_0111 = .and 1 4 7 := by decide
theorem test_decode_or : decodeWord 0b0100_0011_0010_1000 = .or 3 2 8 := by decide
theorem test_decode_xor : decodeWord 0b0101_0001_0100_0110 = .xor 1 4 6 := by decide
theorem test_decode_not : decodeWord 0b0110_0011_1001_0011 = .not 3 9 3 := by decide
theorem test_decode_invalid0111 : decodeWord 0b0111_0000_1111_0101 = .invalid0111 0 15 5 := by decide
theorem test_decode_invalid1000 : decodeWord 0b1000_0001_1110_1000 = .invalid1000 1 14 8 := by decide
theorem test_decode_invalid1001 : decodeWord 0b1001_0010_1101_1011 = .invalid1001 2 13 11 := by decide
theorem test_decode_invalid1010 : decodeWord 0b1010_0011_1100_1110 = .invalid1010 3 12 14 := by decide
theorem test_decode_invalid1011 : decodeWord 0b1011_0100_1011_0001 = .invalid1011 4 11 1 := by decide
theorem test_decode_invalid1100 : decodeWord 0b1100_0101_1010_0100 = .invalid1100 5 10 4 := by decide
theorem test_decode_invalid1101 : decodeWord 0b1101_0110_1001_0111 = .invalid1101 6 9 7 := by decide
theorem test_decode_invalid1110 : decodeWord 0b1110_0111_1000_1010 = .invalid1110 7 8 10 := by decide
theorem test_decode_loadImmediate : decodeWord 0b1111_0011_1111_0100 = .loadImmediate 3 15 4 := by decide

/-- A value above 16 bits is no table word; a short one has zeros above it (30_encoding.md R50). -/
theorem test_decodeTableWord_width :
    decodeTableWord 24 0x10000 = none ∧ decodeTableWord 8 0xFF = some (.add 0 15 15) := by decide

/-! ### Single steps: 95_test_vectors.md sections 1 to 2.6 -/

theorem test_add_wraps : regsOf (exec (.add 0 1 2) (start [0xFFFF, 1, 7])) = some (padded [0xFFFF, 1, 0]) := by decide
theorem test_add_in_place : regsOf (exec (.add 0 0 0) (start [0x8001])) = some (padded [2]) := by decide
theorem test_sub_order_and_wrap :
    regsOf (exec (.sub 0 1 2) (start [3, 5])) = some (padded [3, 5, 0xFFFE]) := by decide
theorem test_sub_zero_minus_allOnes :
    answerOf (exec (.sub 0 1 2) (start [0, 0xFFFF])) = some (some .ok, some 1) := by decide
theorem test_mul_drops_high_half :
    regsOf (exec (.mul 0 1 2) (start [0x1234, 0xFF00])) = some (padded [0x1234, 0xFF00, 0xCC00]) := by decide
theorem test_mul_in_place : regsOf (exec (.mul 0 0 0) (start [0xFF])) = some (padded [0xFE01]) := by decide
theorem test_and : regsOf (exec (.and 0 1 2) (start [0x1234, 0xFF00])) = some (padded [0x1234, 0xFF00, 0x1200]) := by
  decide
theorem test_or : regsOf (exec (.or 0 1 2) (start [0x1234, 0xFF00])) = some (padded [0x1234, 0xFF00, 0xFF34]) := by
  decide
theorem test_xor : regsOf (exec (.xor 0 1 2) (start [0x1234, 0xFF00])) = some (padded [0x1234, 0xFF00, 0xED34]) := by
  decide
theorem test_not_ignores_b :
    regsOf (exec (.not 0 1 2) (start [0x1234, 0xFF00])) = some (padded [0x1234, 0xFF00, 0xEDCB]) := by decide
/-- Section 2.4, row 5: A = 3, B = 15, C = 4 writes r3 and leaves r4. -/
theorem test_loadImmediate_writes_a_not_c :
    regsOf (exec (.loadImmediate 3 15 4) (start (List.replicate 16 0x1111))) =
      some ([0x1111, 0x1111, 0x1111, 0x000F] ++ List.replicate 12 0x1111) := by decide
/-- Section 2.4, row 7: A = B = 5 loads the number 5, not the old x[5]. -/
theorem test_loadImmediate_takes_the_number :
    answerOf (exec (.loadImmediate 5 5 0) (start (List.replicate 16 0x2222))) = some (some .ok, some 5) := by decide
/-- Section 2.5: x[i] = i + 1 stays, Z = 0 and status OK, for each of the eight opcodes. -/
theorem test_invalid_opcodes : ∀ i ∈ invalidInstrs 4 11 1,
    regsOf (exec i (start (List.range' 1 16))) = some (List.range' 1 16) ∧
      answerOf (exec i (start (List.range' 1 16))) = some (some .ok, some 0) := by decide

/-- Section 2.6: execute(15,0,0,16), execute(7,0,0,99), execute(6,0,200,1), execute(16,0,0,0), execute(-1,0,0,0). -/
theorem test_execute_rejections :
    ∀ cmd ∈ [Command.execute 15 0 0 16, .execute 7 0 0 99, .execute 6 0 200 1, .execute 16 0 0 0, .execute (-1) 0 0 0],
      answerOf (step (presented [7] [cmd])) = some (some .invalidInstruction, none) ∧
        regsOf (step (presented [7] [cmd])) = some (padded [7]) := by decide

/-- Section 2.6: execute(15,15,15,15) gives 15 in x[15]. -/
theorem test_execute_all_fifteen :
    regsOf (step (presented [] [.execute 15 15 15 15])) = some (List.replicate 15 0 ++ [15]) := by decide

/-- Section 2.6: bulk replace masks each element, and 15 or 17 elements are rejected. -/
theorem test_replaceAll_masks :
    regsOf (step (presented [9] [.replaceAll (padded [65536, 65535, 65537, 131071])])) =
      some (padded [0, 0xFFFF, 1, 0xFFFF]) := by decide
theorem test_replaceAll_wrong_length : ∀ n ∈ [0, 15, 17],
    answerOf (step (presented [9] [.replaceAll (List.replicate n 1)])) = some (some .invalidRegisterSet, none) ∧
      regsOf (step (presented [9] [.replaceAll (List.replicate n 1)])) = some (padded [9]) := by decide

/-- Section 2.6: a snapshot of x[i] = i. -/
theorem test_snapshot :
    (stateOf State.reset (step (presented (List.range 16) [.snapshot]))).response.snap.map
      (fun f => f.toList.map BitVec.toNat) = some (List.range 16) := by decide

/-- The reset input clears a register file that held values (70_reset_and_hazards.md R150). -/
theorem test_reset_command : regsOf (step (presented [1, 2] [.reset])) = some (padded []) := by decide

/-- An instruction word placed for the next step runs as the first instruction after reset: LOAD_IMMEDIATE r7, #15. -/
theorem test_withFetchWord :
    regsOf (step (State.reset.withFetchWord 16 0xF7F0)) = some (padded [0, 0, 0, 0, 0, 0, 0, 15]) := by decide

/-- The register ports (10_state.md R23, R25). -/
theorem test_ports_outside :
    RegFile.read State.reset.regs 16 = .error .outOfRange ∧ RegFile.write State.reset.regs (-1) 5 = .error .outOfRange := by
  decide

/-- A term no step hands to `exec` is rejected too, not read. -/
theorem test_exec_illFormed :
    answerOf (exec (.loadImmediate 0 0 16) (start [7])) = some (some .invalidInstruction, none) := by decide

/-! ### Assembly (30_encoding.md R62 to R64; words of 95_test_vectors.md) -/

theorem test_assemble_forms :
    (assembleLine "NOT r3, r9, r3".toList).map encode = .ok 0x6393 ∧
    (assembleLine "NOT r0, r1".toList).map encode = .ok 0x6001 ∧
    (assembleLine "LOAD_IMMEDIATE r3, #15, r4".toList).map encode = .ok 0xF3F4 ∧
    (assembleLine "LOAD_IMMEDIATE r7, #0b1111".toList).map encode = .ok 0xF7F0 ∧
    (assembleLine ".insn 0xE, 7, 8, 10".toList).map encode = .ok 0xE78A := by decide

theorem test_assemble_refusals :
    assembleLine "ADD r0, r16, r1".toList = .error .registerOutOfRange ∧
    assembleLine "LOAD_IMMEDIATE r0, #16".toList = .error .immediateOutOfRange ∧
    assembleLine ".insn 16, 0, 0, 0".toList = .error .fieldOutOfRange ∧
    assembleLine "ADD r0, r1".toList = .error .wrongOperandCount ∧
    assembleLine "LOAD_IMMEDIATE r0, #-1".toList = .error .immediateOutOfRange := by decide

/-- Where the spec is silent: minus zero is 0, and a `.insn` number may be in any base of R62 (log entry 9). -/
theorem test_assemble_minus_zero_and_bases :
    assembleLine "ADD r-0, r1, r2".toList = .ok (.add 0 1 2) ∧
    assembleLine ".insn 0b111, -0, 0xF, 5".toList = .ok (.invalid0111 0 15 5) := by decide

theorem test_assemble_names_the_line :
    assembleProgram ["ADD r0, r0, r1".toList, "MOV r0, r1".toList] = .error (2, .unknownMnemonic) := by decide

/-! ### Witnesses: a concrete state and operands that meet the hypotheses of each statement that has any -/

theorem witness_DecodeOfEncodeIsTheInstruction : (Instr.sub 15 0 9).WellFormed := by decide

theorem witness_OpcodeAloneFixesTheClass_boundaries :
    classOutput 6 .not = true ∧ classOutput 7 .invalid = true ∧ classOutput 14 .invalid = true ∧
      classOutput 15 .loadImmediate = true := by decide

theorem witness_IgnoredFieldsChangeNothing :
    ∀ p ∈ [(Instr.not 1 0 2, Instr.not 1 15 2), (.loadImmediate 1 9 0, .loadImmediate 1 9 15),
        (.invalid0111 0 15 5, .invalid1110 7 8 10), (.sub 0 1 2, .sub 0 1 2)],
      p.1.WellFormed ∧ p.2.WellFormed ∧ p.1.cls = p.2.cls := by decide

theorem witness_IgnoredFieldsChangeNothing_sameFields :
    Instr.SameUsedFields (Instr.not 1 0 2).cls.form (.not 1 0 2) (.not 1 15 2) ∧
      Instr.SameUsedFields (Instr.loadImmediate 1 9 0).cls.form (.loadImmediate 1 9 0) (.loadImmediate 1 9 15) ∧
      Instr.SameUsedFields (Instr.invalid0111 0 15 5).cls.form (.invalid0111 0 15 5) (.invalid1110 7 8 10) ∧
      Instr.SameUsedFields (Instr.sub 0 1 2).cls.form (.sub 0 1 2) (.sub 0 1 2) :=
  ⟨⟨rfl, rfl⟩, ⟨rfl, rfl⟩, trivial, rfl, rfl, rfl⟩

theorem witness_StepRunsTheDecodedInstruction :
    (presented [5, 3] [.execute 1 0 1 2, .snapshot]).pending = .execute 1 0 1 2 :: [.snapshot] ∧
      decodeTuple 1 0 1 2 = .ok (.sub 0 1 2) := by decide

theorem witness_ExecuteRejectsFieldOutsideRange :
    (presented [] [.execute 0 16 0 0]).pending = .execute 0 16 0 0 :: [] ∧
      ¬(FieldInRange 0 ∧ FieldInRange 16 ∧ FieldInRange 0 ∧ FieldInRange 0) := by decide

theorem witness_InvalidInstructionOnlyFromValidation :
    step (presented [7] [.execute 16 0 0 0]) =
      .next { presented [7] [] with response := .rejected .invalidInstruction } := rfl

theorem witness_InvalidRegisterSetOnlyFromBulkReplace :
    step (presented [7] [.replaceAll []]) =
      .next { presented [7] [] with response := .rejected .invalidRegisterSet } := rfl

theorem witness_ExecuteRaisesOnlyInvalidInstruction : ∀ op ∈ [(7 : Int), 14],
    (presented [] [.execute op 0 15 5]).pending = .execute op 0 15 5 :: [] ∧ 7 ≤ op ∧ op ≤ 14 ∧
      FieldInRange 0 ∧ FieldInRange 15 ∧ FieldInRange 5 := by decide

theorem witness_ReadPortContract_boundaries :
    ¬((0 : Int) ≤ 16 ∧ (16 : Int) ≤ 15) ∧ ¬((0 : Int) ≤ -1 ∧ (-1 : Int) ≤ 15) ∧
      RegFile.read (start (List.range 16)).regs 15 = .ok 15 := by decide

theorem witness_ReadPortContract_step : step (presented [] []) = .next State.reset := rfl

theorem witness_WritePortContract :
    (0 : Fin 16) ≠ 15 ∧ ¬((0 : Int) ≤ 16 ∧ (16 : Int) ≤ 15) ∧ ¬((0 : Int) ≤ -1 ∧ (-1 : Int) ≤ 15) := by decide

theorem witness_DatapathNetsFollowTheClass :
    OpClass.loadImmediate = .loadImmediate ∧ OpClass.invalid ≠ .loadImmediate := by decide

theorem witness_WellFormedInstructionReturnsWhatItWrites :
    (Instr.loadImmediate 15 1 0).WellFormed ∧ (Instr.loadImmediate 15 1 0).destination = some (fld 15) ∧
      (Instr.mul 0 15 15).WellFormed ∧ (Instr.mul 0 15 15).destination = some (fld 15) ∧
      (Instr.invalid1110 15 0 15).WellFormed ∧ (Instr.invalid1110 15 0 15).destination = none := by decide

theorem witness_ExecuteChangesOnlyItsDestination :
    (∃ t, exec (.add 0 1 2) (start [5, 3]) = .next t) ∧ (Instr.invalid1011 4 11 1).destination = none ∧
      ¬(Instr.add 0 16 2).WellFormed ∧ (Instr.add 0 1 2).destination ≠ some (fld 3) :=
  ⟨⟨_, rfl⟩, by decide⟩

theorem witness_StepDependsOnlyOnOperationAndRegisters :
    (presented [5] [.execute 0 0 0 1, .reset]).pending = .execute 0 0 0 1 :: [.reset] ∧
      ({ presented [5] [.execute 0 0 0 1] with response := .replaced }).pending = .execute 0 0 0 1 :: [] ∧
      (presented [5] [.execute 0 0 0 1, .reset]).regs =
        ({ presented [5] [.execute 0 0 0 1] with response := .replaced }).regs := by decide

theorem witness_WritesFieldC_rejection : ¬(FieldInRange 0 ∧ FieldInRange 0 ∧ FieldInRange 16) := by decide

theorem witness_LoadImmediateLoadsFieldBIntoFieldA :
    (4 : Fin 16) ≠ 3 ∧ ¬(FieldInRange 0 ∧ FieldInRange 0 ∧ FieldInRange 16) := by decide

theorem witness_InvalidOpcodesReturnZeroAndWriteNothing :
    Instr.invalid1101 6 9 7 ∈ invalidInstrs (fld 6) (fld 9) (fld 7) ∧
      ¬(FieldInRange 0 ∧ FieldInRange 0 ∧ FieldInRange 99) ∧ Instr.invalid0111 0 0 99 ∈ invalidInstrs 0 0 99 := by
  decide

theorem witness_InvalidIsToldApartOnlyByNonZeroDestination :
    (Instr.sub 0 0 1).destination = some (fld 1) ∧
      (∃ u, exec (.sub 0 0 1) (start [5, 9]) = .next u ∧ u.response.result = some 0) ∧
      Instr.invalid0111 0 1 2 ∈ invalidInstrs (fld 0) (fld 1) (fld 2) :=
  ⟨rfl, ⟨_, rfl, by decide⟩, by decide⟩

theorem witness_IdiomsDoWhatTheyAreFor :
    (start [5, 0]).regs[(1 : Fin 16)] = 0 ∧ (start [5, 1]).regs[(1 : Fin 16)].toNat = 2 ^ 0 ∧
      (start [5, 32768]).regs[(1 : Fin 16)].toNat = 2 ^ 15 := by decide

theorem witness_BulkReplaceLoadsAllOrRejects : ∀ n ∈ [15, 16, 17],
    (presented [] [.replaceAll (List.replicate n 65536)]).pending = .replaceAll (List.replicate n 65536) :: [] ∧
      (List.replicate n 65536).length = n := by decide

theorem witness_BulkReplaceLoadsAllOrRejects_element : (List.replicate 16 65536)[(15 : Fin 16).val]? = some 65536 := by
  decide

theorem witness_SnapshotReturnsTheRegisters :
    (presented [5] [.snapshot]).pending = .snapshot :: [] ∧
      (presented [5] [.snapshot, .snapshot]).pending = .snapshot :: .snapshot :: [] ∧
      ∃ t f, exec (.add 0 0 1) (start [5]) = .next t ∧ t.response.snap = some f :=
  ⟨rfl, rfl, _, _, rfl, rfl⟩

theorem witness_ResetClearsEveryRegister : (presented [5] [.reset]).pending = .reset :: [] := rfl

theorem witness_StepWithoutOperationChangesNothing :
    (presented [5] []).pending = [] ∧ (presented [5] [.idle]).pending = .idle :: [] := ⟨rfl, rfl⟩

theorem witness_RejectionLeavesThePriorState :
    ∃ t, step (presented [7] [.execute 0 0 16 0]) = .next t ∧ t.response = .rejected .invalidInstruction :=
  ⟨_, rfl, rfl⟩

theorem witness_RejectedOperationLeavesNoTrace :
    ∃ t, (presented [7] [.replaceAll [1], .execute 0 0 0 0]).pending = .replaceAll [1] :: [.execute 0 0 0 0] ∧
      step (presented [7] [.replaceAll [1], .execute 0 0 0 0]) = .next t ∧
      t.response = .rejected .invalidRegisterSet :=
  ⟨_, rfl, rfl, rfl⟩

theorem witness_OnlyWritesChangeRegisters :
    ∃ t, step (presented [7] [.execute 0 0 0 1]) = .next t ∧ t.regs ≠ (presented [7] [.execute 0 0 0 1]).regs :=
  ⟨_, rfl, by decide⟩

/-- Inputs with a given select and reset, for the clauses of the signal statement. -/
def inputs (cmd : CmdSelect) (rst : Bool) : Inputs :=
  { op := 15, a := 15, b := 15, c := 15, cmd := cmd, ld := (start (List.range 16)).regs, rst := rst }

theorem witness_SignalStepsAreServed :
    (inputs .none true).rst = true ∧
      ∀ cmd ∈ [CmdSelect.none, .execute, .replaceAll, .snapshot],
        (inputs cmd false).rst = false ∧ (inputs cmd false).cmd = cmd := by decide

theorem witness_StepKeepsTheResponseCoherent :
    State.reset.Coherent ∧ ∃ t, step State.reset = .next t :=
  ⟨⟨(fun _ h => nomatch h), by decide⟩, _, rfl⟩

theorem witness_ExecuteRefinesThePseudocode :
    (presented [5, 3] [.execute 1 0 1 2]).pending = .execute 1 0 1 2 :: [] := rfl

/-- The bounds of each place: the last number accepted, the first refused, a negative one, and a text that is none. -/
theorem witness_AssemblerNeverWrapsAnOperand :
    Reference.OperandPlace.register.number "r15".toList = some (fld 15) ∧
      Reference.OperandPlace.register.number "r16".toList = some 16 ∧
      Reference.OperandPlace.register.number "#1".toList = none ∧
      Reference.OperandPlace.immediate.number "#0xF".toList = some (fld 15) ∧
      Reference.OperandPlace.immediate.number "#0b10000".toList = some 16 ∧
      Reference.OperandPlace.immediate.number "#-1".toList = some (-1) ∧
      Reference.OperandPlace.insnField.number "0".toList = some (fld 0) ∧
      Reference.OperandPlace.insnField.number "-16".toList = some (-16) := by decide

theorem witness_AssemblerNeverWrapsAnOperand_line :
    assembleLine "ADD r2, r2, r15".toList = .ok (.add 2 2 15) ∧
      Reference.operandPlaces (lineMnemonic "ADD r2, r2, r15".toList) 3 = some [.register, .register, .register] ∧
      List.zipWith Reference.OperandPlace.number [.register, .register, .register]
        (lineOperands "ADD r2, r2, r15".toList) = [2, 2, 15].map some := by decide

theorem witness_AssemblerRefusesByForm :
    Reference.isMnemonic (lineMnemonic "MOV r0, r1".toList) = false ∧
      (∀ line ∈ ["ADD r0, r1", "ADD r0, r1, r2, r3", "NOT r0", "LOAD_IMMEDIATE r0", ".insn 1, 2, 3"],
        Reference.isMnemonic (lineMnemonic line.toList) = true ∧
          Reference.operandPlaces (lineMnemonic line.toList) (lineOperands line.toList).length = none) := by decide

theorem witness_AssemblerRefusesByForm_range :
    Reference.operandPlaces (lineMnemonic "LOAD_IMMEDIATE r15, #16".toList) 2 = some [.register, .immediate] ∧
      (lineOperands "LOAD_IMMEDIATE r15, #16".toList)[0]? = some "r15".toList ∧
      (lineOperands "LOAD_IMMEDIATE r15, #16".toList)[1]? = some "#16".toList ∧
      Reference.OperandPlace.register.number "r15".toList = some (fld 15) ∧
      Reference.OperandPlace.immediate.number "#16".toList = some 16 ∧ ¬((0 : Int) ≤ 16 ∧ (16 : Int) ≤ 15) := by decide

theorem witness_UnwrittenRegisterReadsZero :
    (presented [] [.execute 0 0 0 1, .snapshot]).regs = State.reset.regs ∧
      ∀ cmd ∈ (presented [] [.snapshot, .replaceAll [7], .execute 7 1 1 1]).pending.take 2, ¬cmd.Writes 1 := by
  refine ⟨by decide, fun cmd hc => ?_⟩
  simp only [presented, List.take, List.mem_cons, List.not_mem_nil, or_false] at hc
  obtain rfl | rfl := hc
  · exact id
  · exact (by decide : ¬[7].length = 16)

theorem witness_AssemblerNamesTheRefusedLine :
    assembleProgram ["ADD r0, r0, r1".toList] = .ok [.add 0 0 1] ∧
      assembleLine "ADD r0".toList = .error .wrongOperandCount := by decide

end Sys2Proof.Tests
end

/-! SUPPORT. The rules the statements on the state and the host's operations need: decoding by opcode, an execute on the
fields of four indices, the destination of an instruction, and each operation's next state; then those statements. -/

namespace Sys2Proof

/-! ### Decoding by opcode -/

theorem instrOfOpcode_opcode (op : BitVec 4) (a b c : Int) : (instrOfOpcode op a b c).opcode = op.toNat := by
  obtain ⟨⟨n, hn⟩⟩ := op
  interval_cases n <;> rfl

/-- The class of a decoded instruction is that of its opcode (30_encoding.md R57). -/
@[simp] theorem instrOfOpcode_cls (op : BitVec 4) (a b c : Int) : (instrOfOpcode op a b c).cls = decodeClass op := by
  simp [Instr.cls, instrOfOpcode_opcode]

@[simp] theorem instrOfOpcode_fieldA (op : BitVec 4) (a b c : Int) : (instrOfOpcode op a b c).fieldA = a := by
  unfold instrOfOpcode; split <;> rfl

@[simp] theorem instrOfOpcode_fieldB (op : BitVec 4) (a b c : Int) : (instrOfOpcode op a b c).fieldB = b := by
  unfold instrOfOpcode; split <;> rfl

@[simp] theorem instrOfOpcode_fieldC (op : BitVec 4) (a b c : Int) : (instrOfOpcode op a b c).fieldC = c := by
  unfold instrOfOpcode; split <;> rfl

/-- The opcode map by class: one opcode for each recognised class, 7 to 14 for INVALID (30_encoding.md R56). -/
theorem decodeClass_cases (k : Fin 16) :
    (k = 0 ∧ decodeClass (.ofFin k) = .add) ∨ (k = 1 ∧ decodeClass (.ofFin k) = .sub) ∨
    (k = 2 ∧ decodeClass (.ofFin k) = .mul) ∨ (k = 3 ∧ decodeClass (.ofFin k) = .and) ∨
    (k = 4 ∧ decodeClass (.ofFin k) = .or) ∨ (k = 5 ∧ decodeClass (.ofFin k) = .xor) ∨
    (k = 6 ∧ decodeClass (.ofFin k) = .not) ∨ (k = 15 ∧ decodeClass (.ofFin k) = .loadImmediate) ∨
    (7 ≤ k.val ∧ k.val ≤ 14 ∧ decodeClass (.ofFin k) = .invalid) := by
  revert k; decide

/-- The destination is where the write-enable logic writes: nowhere under INVALID, else at the write address. -/
theorem destination_eq (i : Instr) :
    i.destination = if i.cls = .invalid then none else some (Machine.writeAddress i.cls i.fieldA i.fieldC) := by
  cases i <;> rfl

namespace Machine

/-! ### The registers after an execute -/

theorem regsAfter_invalid (a b c : Fin 16) (f : RegFile) : regsAfter .invalid a b c f = f := rfl

theorem regsAfter_loadImmediate (a b c : Fin 16) (f : RegFile) :
    regsAfter .loadImmediate a b c f = f.set a (immediate (fld b)) := rfl

/-- A class other than LOAD_IMMEDIATE and INVALID writes its result to field C. -/
theorem regsAfter_fieldC {cls : OpClass} (hi : cls ≠ .invalid) (hl : cls ≠ .loadImmediate) (a b c : Fin 16)
    (f : RegFile) : regsAfter cls a b c f = f.set c (resultMux cls f[a] f[b] (fld b)) := by
  cases cls with
  | invalid => exact absurd rfl hi
  | loadImmediate => exact absurd rfl hl
  | _ => rfl

theorem writeAddress_fieldC {cls : OpClass} (hl : cls ≠ .loadImmediate) (a c : Int) : writeAddress cls a c = c := by
  cases cls with
  | loadImmediate => exact absurd rfl hl
  | _ => rfl

/-- The frame of a served instruction: every register but its destination (40_execute.md R82). -/
theorem regsAfter_get_of_not_destination {i : Instr} {a c k : Fin 16} (ha : i.fieldA = fld a) (hc : i.fieldC = fld c)
    (hk : i.destination ≠ some (fld k)) (b : Fin 16) (f : RegFile) : (regsAfter i.cls a b c f)[k] = f[k] := by
  rw [destination_eq, ha, hc] at hk
  by_cases hi : i.cls = .invalid
  · rw [hi, regsAfter_invalid]
  by_cases hl : i.cls = .loadImmediate
  · rw [hl, regsAfter_loadImmediate]
    refine get_set_other f _ fun e => hk ?_
    simp [hl, writeAddress, e]
  · rw [regsAfter_fieldC hi hl]
    refine get_set_other f _ fun e => hk ?_
    simp [hi, writeAddress_fieldC hl, e]

/-! ### An execute by its four fields -/

/-- A field outside [0,15] rejects the execute (40_execute.md R71). -/
theorem runExecute_outside {op a b c : Int} (s : State)
    (h : ¬(FieldInRange op ∧ FieldInRange a ∧ FieldInRange b ∧ FieldInRange c)) :
    runExecute op a b c s = .next (s.reject .invalidInstruction) :=
  runExecute_rejects s (by rwa [← Bool.not_eq_true, validTuple_iff])

theorem ofNat_fld (o : Fin 16) : BitVec.ofNat 4 (fld o).toNat = .ofFin o :=
  BitVec.eq_of_toNat_eq (Nat.mod_eq_of_lt o.isLt)

theorem decodeTuple_fld (o a b c : Fin 16) :
    decodeTuple (fld o) (fld a) (fld b) (fld c) = .ok (instrOfOpcode (.ofFin o) (fld a) (fld b) (fld c)) := by
  rw [decodeTuple_ok ((validTuple_iff _ _ _ _).2 ⟨fld_inRange o, fld_inRange a, fld_inRange b, fld_inRange c⟩),
    ofNat_fld]

theorem runExecute_of_decodeTuple {op a b c : Int} {i : Instr} (s : State) (h : decodeTuple op a b c = .ok i) :
    runExecute op a b c s = exec i s := by
  simp only [runExecute, h]

/-- An execute of four 4-bit values answers its result and the registers after its write. -/
theorem runExecute_fld (o a b c : Fin 16) (s : State) :
    runExecute (fld o) (fld a) (fld b) (fld c) s =
      .next { s with
        regs := regsAfter (decodeClass (.ofFin o)) a b c s.regs
        response := .executed (resultMux (decodeClass (.ofFin o)) s.regs[a] s.regs[b] (fld b))
          (regsAfter (decodeClass (.ofFin o)) a b c s.regs) } := by
  simp [runExecute_of_decodeTuple s (decodeTuple_fld o a b c), exec_eq_runDatapath, runDatapath_serves]

/-- A tuple has a field outside [0,15], or its fields are those of four indices. -/
theorem tuple_cases (op a b c : Int) :
    ¬(FieldInRange op ∧ FieldInRange a ∧ FieldInRange b ∧ FieldInRange c) ∨
    ∃ o ka kb kc : Fin 16, op = fld o ∧ a = fld ka ∧ b = fld kb ∧ c = fld kc := by
  by_cases h : FieldInRange op ∧ FieldInRange a ∧ FieldInRange b ∧ FieldInRange c
  · obtain ⟨ho, ha, hb, hc⟩ := h
    obtain ⟨o, rfl⟩ := exists_fld ho
    obtain ⟨ka, rfl⟩ := exists_fld ha
    obtain ⟨kb, rfl⟩ := exists_fld hb
    obtain ⟨kc, rfl⟩ := exists_fld hc
    exact .inr ⟨o, ka, kb, kc, rfl, rfl, rfl, rfl⟩
  · exact .inl h

/-! ### The host's operations -/

theorem runReplaceAll_wrong_length {values : List Nat} (s : State) (h : values.length ≠ 16) :
    runReplaceAll values s = .next (s.reject .invalidRegisterSet) := by
  simp [runReplaceAll, ofValues_wrong_length h]

theorem runReplaceAll_of_ofValues {values : List Nat} {f : RegFile} (s : State) (h : RegFile.ofValues values = .ok f) :
    runReplaceAll values s = .next { s with regs := f, response := .replaced } := by
  simp [runReplaceAll, h]

/-- Loading the numbers of a register file gives that register file. -/
theorem ofValues_toNat (f : RegFile) : RegFile.ofValues (f.toList.map BitVec.toNat) = .ok f := by
  obtain ⟨g, hg, hget⟩ := ofValues_get (values := f.toList.map BitVec.toNat) (by simp)
  have : g = f := Vector.ext fun k hk => by simpa using hget ⟨k, hk⟩
  rw [hg, this]

/-! ### Everything an operation can do -/

/-- The next states of the operations, by operation: what `runCommand` answers (`runCommand_served`). -/
inductive Served (s : State) : Command → State → Prop where
  | idle : Served s .idle { s with response := .none }
  | executeRejected {op a b c : Int}
      (h : ¬(FieldInRange op ∧ FieldInRange a ∧ FieldInRange b ∧ FieldInRange c)) :
      Served s (.execute op a b c) (s.reject .invalidInstruction)
  | executed (o a b c : Fin 16) :
      Served s (.execute (fld o) (fld a) (fld b) (fld c))
        { s with
          regs := regsAfter (decodeClass (.ofFin o)) a b c s.regs
          response := .executed (resultMux (decodeClass (.ofFin o)) s.regs[a] s.regs[b] (fld b))
            (regsAfter (decodeClass (.ofFin o)) a b c s.regs) }
  | replaceRejected {values : List Nat} (h : values.length ≠ 16) :
      Served s (.replaceAll values) (s.reject .invalidRegisterSet)
  | replaced {values : List Nat} {f : RegFile} (hl : values.length = 16) (hf : RegFile.ofValues values = .ok f) :
      Served s (.replaceAll values) { s with regs := f, response := .replaced }
  | snapshot : Served s .snapshot { s with response := .snapshot s.regs.values }
  | reset : Served s .reset { s with regs := State.reset.regs, response := .none }

/-- Every operation answers one of its next states. -/
theorem runCommand_served (cmd : Command) (s : State) : ∃ t, runCommand cmd s = .next t ∧ Served s cmd t := by
  cases cmd with
  | idle => exact ⟨_, rfl, .idle⟩
  | execute op a b c =>
    obtain h | ⟨o, ka, kb, kc, rfl, rfl, rfl, rfl⟩ := tuple_cases op a b c
    · exact ⟨_, runExecute_outside s h, .executeRejected h⟩
    · exact ⟨_, runExecute_fld o ka kb kc s, .executed o ka kb kc⟩
  | replaceAll values =>
    by_cases hl : values.length = 16
    · obtain ⟨f, hf, -⟩ := ofValues_get hl
      exact ⟨_, runReplaceAll_of_ofValues s hf, .replaced hl hf⟩
    · exact ⟨_, runReplaceAll_wrong_length s hl, .replaceRejected hl⟩
  | snapshot => exact ⟨_, rfl, .snapshot⟩
  | reset => exact ⟨_, rfl, .reset⟩

theorem served_of_runCommand {cmd : Command} {s t : State} (h : runCommand cmd s = .next t) : Served s cmd t := by
  obtain ⟨u, hu, hs⟩ := runCommand_served cmd s
  obtain rfl := Host.Outcome.next.inj (hu.symm.trans h)
  exact hs

theorem Served.pending {s t : State} {cmd : Command} (h : Served s cmd t) : t.pending = s.pending := by
  cases h <;> rfl

/-! ### The coherence of the response -/

/-- Whatever the state before, the response of a served operation is coherent with the registers after it. -/
theorem Served.coherent {s t : State} {cmd : Command} (h : Served s cmd t) : t.Coherent := by
  cases h <;> simp [State.Coherent, RegFile.values]

theorem step_coherent {s t : State} (h : step s = .next t) : t.Coherent :=
  (served_of_runCommand h).coherent

/-- Settles O45: a step is one operation, and each operation's own response is coherent. -/
theorem stepKeepsTheResponseCoherent : Obligations.StepKeepsTheResponseCoherent :=
  fun _ _ _ h => step_coherent h

/-! ### The refinement of the pseudocode -/

theorem asMap_fld (f : RegFile) (k : Fin 16) : f.asMap (fld k) = f[k].toNat := by
  have : 0 ≤ fld k ∧ fld k ≤ 15 := fld_inRange k
  simp [RegFile.asMap, this, fld]

theorem asMap_outside (f : RegFile) {i : Int} (h : ¬FieldInRange i) : f.asMap i = 0 :=
  dif_neg h

/-- A write of one cell is an update of the map. -/
theorem asMap_set (f : RegFile) (k : Fin 16) (w : Word) :
    RegFile.asMap (f.set k w) = Reference.update f.asMap (fld k) w.toNat := by
  funext i
  by_cases hi : FieldInRange i
  · obtain ⟨j, rfl⟩ := exists_fld hi
    by_cases hj : j = k
    · subst hj; simp [Reference.update, asMap_fld]
    · have : fld j ≠ fld k := fun e => hj (fld_injective e)
      simp only [Reference.update, asMap_fld, if_neg this, get_set_other f w hj]
  · have : i ≠ fld k := fun e => hi (e ▸ fld_inRange k)
    simp only [Reference.update, asMap_outside _ hi, if_neg this]

/-- The multiplexer's result is the result column of the opcode map on exact integers. -/
theorem resultMux_toNat (o b : Fin 16) (x y : Word) :
    (resultMux (decodeClass (.ofFin o)) x y (fld b)).toNat = Reference.result (fld o) (fld b) x.toNat y.toNat := by
  obtain ⟨rfl, h⟩ | ⟨rfl, h⟩ | ⟨rfl, h⟩ | ⟨rfl, h⟩ | ⟨rfl, h⟩ | ⟨rfl, h⟩ | ⟨rfl, h⟩ | ⟨rfl, h⟩ | ⟨h7, h14, h⟩ :=
    decodeClass_cases o <;> rw [h]
  · exact aluAdd_toNat x y
  · have := aluSub_toNat x y
    have hr : Reference.result (fld 1) (fld b) x.toNat y.toNat =
        (((x.toNat : Int) - (y.toNat : Int)) % 65536).toNat := rfl
    simp only [resultMux, hr]
    omega
  · exact aluMul_toNat x y
  · exact BitVec.toNat_and x y
  · exact BitVec.toNat_or x y
  · exact BitVec.toNat_xor x y
  · exact aluNot_toNat x
  · exact immediate_fld_toNat b
  · simp only [Reference.result, fld, resultMux]
    repeat rw [if_neg (by omega)]
    rfl

/-- The write of the pseudocode: to field C up to opcode 6, to field A at opcode 15, none between. -/
theorem regsAfter_asMap (o a b c : Fin 16) (f : RegFile) :
    (regsAfter (decodeClass (.ofFin o)) a b c f).asMap =
      if fld o ≤ 6 then
        Reference.update f.asMap (fld c) (resultMux (decodeClass (.ofFin o)) f[a] f[b] (fld b)).toNat
      else if fld o = 15 then
        Reference.update f.asMap (fld a) (resultMux (decodeClass (.ofFin o)) f[a] f[b] (fld b)).toNat
      else f.asMap := by
  by_cases h6 : fld o ≤ 6
  · obtain ⟨hi, hl⟩ : decodeClass (.ofFin o) ≠ .invalid ∧ decodeClass (.ofFin o) ≠ .loadImmediate := by
      revert o; decide
    rw [if_pos h6, regsAfter_fieldC hi hl, asMap_set]
  by_cases h15 : fld o = 15
  · obtain rfl : o = 15 := fld_injective h15
    exact asMap_set f a _
  · have h : decodeClass (.ofFin o) = .invalid := by
      revert o; decide
    rw [if_neg h6, if_neg h15, h, regsAfter_invalid]

theorem reference_execute_outside {op a b c : Int} (x : Int → Nat)
    (h : ¬(FieldInRange op ∧ FieldInRange a ∧ FieldInRange b ∧ FieldInRange c)) :
    Reference.execute op a b c x = .error .invalidInstruction :=
  if_pos (by omega)

/-- The pseudocode on four 4-bit values and the map of a register file is the datapath's result and write. -/
theorem reference_execute_fld (o a b c : Fin 16) (f : RegFile) :
    Reference.execute (fld o) (fld a) (fld b) (fld c) f.asMap =
      .ok ((resultMux (decodeClass (.ofFin o)) f[a] f[b] (fld b)).toNat,
        (regsAfter (decodeClass (.ofFin o)) a b c f).asMap) := by
  rw [Reference.execute, if_neg (by simp only [fld]; omega)]
  simp only [regsAfter_asMap, resultMux_toNat, asMap_fld]

/-- Settles O48: both readings reject the same tuples, and agree on the fields of four indices. -/
theorem executeRefinesThePseudocode : Obligations.ExecuteRefinesThePseudocode := by
  intro s op a b c rest hp
  obtain h | ⟨o, ka, kb, kc, rfl, rfl, rfl, rfl⟩ := tuple_cases op a b c
  · refine ⟨_, (step_cons hp).trans (runExecute_outside _ h), rfl, ?_⟩
    rw [reference_execute_outside _ h]
    exact ⟨rfl, rfl⟩
  · refine ⟨_, (step_cons hp).trans (runExecute_fld o ka kb kc _), rfl, ?_⟩
    rw [reference_execute_fld]
    exact ⟨_, rfl, rfl, rfl⟩

/-! ### The register ports -/

theorem step_answers (s : State) : ∃ t, step s = .next t :=
  runCommand_answers _ _

/-- Settles O14: the port's two laws; every step answers a next state, and that state is coherent. -/
theorem readPortContract : Obligations.ReadPortContract := by
  refine ⟨read_fld, fun f _ h => read_outside f h, fun s => ⟨?_, fun t h => (step_coherent h).2⟩⟩
  obtain ⟨t, h⟩ := step_answers s
  simp [h]

/-- Settles O15, from the write port's laws and those of the mask. -/
theorem writePortContract : Obligations.WritePortContract := by
  refine ⟨fun f k v => ⟨_, write_fld f k v, ?_, fun j h => get_set_other f _ h⟩, fun f _ v h => write_outside f v h⟩
  rw [get_set_same, mask16_toNat]

/-! ### The operations -/

/-- Settles O8: an execute that decodes is dispatched. -/
theorem stepRunsTheDecodedInstruction : Obligations.StepRunsTheDecodedInstruction := by
  intro s op a b c rest i hp hd
  exact (step_cons hp).trans (runExecute_of_decodeTuple _ hd)

/-- Settles O35, by the number of elements. -/
theorem bulkReplaceLoadsAllOrRejects : Obligations.BulkReplaceLoadsAllOrRejects := by
  intro s values rest hp
  refine ⟨fun hl => ?_, fun hl => (step_cons hp).trans (runReplaceAll_wrong_length _ hl)⟩
  obtain ⟨f, hf, hget⟩ := ofValues_get hl
  refine ⟨f, fun k v hv => ?_, (step_cons hp).trans (runReplaceAll_of_ofValues _ hf)⟩
  obtain ⟨_, rfl⟩ := List.getElem?_eq_some_iff.1 hv
  rw [hget, mask16_natCast]

theorem step_snapshot {s : State} {rest : List Command} (h : s.pending = .snapshot :: rest) :
    step s = .next { s with pending := rest, response := .snapshot s.regs } :=
  step_cons h

/-- Settles O36: a snapshot leaves the registers for the next one, and an execute carries those after its write. -/
theorem snapshotReturnsTheRegisters : Obligations.SnapshotReturnsTheRegisters := by
  refine ⟨fun s rest h => step_snapshot h, fun s rest h => ⟨_, _, step_snapshot h, step_snapshot rfl, rfl⟩, ?_⟩
  intro i s t f h hf
  obtain ⟨-, e⟩ | ⟨_, _, _, -, -, -, e⟩ := exec_cases i s <;>
    obtain rfl := Host.Outcome.next.inj (e.symm.trans h)
  · simp at hf
  · simpa using hf.symm

/-- Settles O39: both steps are the step with no operation. -/
theorem stepWithoutOperationChangesNothing : Obligations.StepWithoutOperationChangesNothing :=
  ⟨fun _ h => step_nil h, fun _ _ h => step_cons h, result_none, status_none⟩

/-- Settles O43, by the operation the step serves: no operation and a snapshot keep the registers. -/
theorem onlyWritesChangeRegisters : Obligations.OnlyWritesChangeRegisters := by
  intro s t h hne
  cases hp : s.pending with
  | nil => obtain rfl := Host.Outcome.next.inj ((step_nil hp).symm.trans h); exact absurd rfl hne
  | cons cmd rest =>
    cases cmd with
    | idle => obtain rfl := Host.Outcome.next.inj ((step_cons hp).symm.trans h); exact absurd rfl hne
    | execute op a b c => exact .inl ⟨op, a, b, c, rest, rfl⟩
    | replaceAll values => exact .inr (.inl ⟨values, rest, rfl⟩)
    | snapshot => obtain rfl := Host.Outcome.next.inj ((step_snapshot hp).symm.trans h); exact absurd rfl hne
    | reset => exact .inr (.inr ⟨rest, rfl⟩)

/-! ### Reset and the registers nothing has written -/

theorem reset_get (k : Fin 16) : State.reset.regs[k] = 0 := by
  simp [Fin.getElem_fin]

/-- Settles O38, by the read port's law. -/
theorem resetStateReadsZero : Obligations.ResetStateReadsZero :=
  fun k => ⟨reset_get k, by rw [read_fld, reset_get]⟩

/-- Settles O46: the reset state shows no registers. -/
theorem resetStateIsCoherent : Obligations.ResetStateIsCoherent := by
  simp [Obligations.ResetStateIsCoherent, State.Coherent]

/-- An operation that does not write a register leaves a 0 in it. -/
theorem Served.keeps_zero {cmd : Command} {s t : State} {k : Fin 16} (h : Served s cmd t) (hw : ¬cmd.Writes k)
    (h0 : s.regs[k] = 0) : t.regs[k] = 0 := by
  cases h with
  | idle | executeRejected | replaceRejected | snapshot => exact h0
  | executed o a b c =>
    have hk : (instrOfOpcode (.ofFin o) (fld a) (fld b) (fld c)).destination ≠ some (fld k) :=
      fun hk => hw ⟨_, decodeTuple_fld o a b c, hk⟩
    have := regsAfter_get_of_not_destination (instrOfOpcode_fieldA ..) (instrOfOpcode_fieldC ..) hk b s.regs
    rw [instrOfOpcode_cls] at this
    exact this.trans h0
  | replaced hl => exact absurd hl hw
  | reset => exact reset_get k

/-- A run of which no operation writes a register leaves a 0 in it. -/
theorem run_keeps_zero (n : Nat) {s : State} {k : Fin 16} (h0 : s.regs[k] = 0)
    (hw : ∀ cmd ∈ s.pending.take n, ¬cmd.Writes k) : ∃ t, core.run n s = .next t ∧ t.regs[k] = 0 := by
  induction n generalizing s with
  | zero => exact ⟨s, rfl, h0⟩
  | succ n ih =>
    cases hp : s.pending with
    | nil =>
      rw [run_succ n (step_nil hp)]
      exact ih h0 (by simp [hp])
    | cons cmd rest =>
      rw [hp, List.take_succ_cons, List.forall_mem_cons] at hw
      obtain ⟨hcmd, hrest⟩ := hw
      obtain ⟨t, ht, hs⟩ := runCommand_served cmd { s with pending := rest }
      rw [run_succ n ((step_cons hp).trans ht)]
      exact ih (hs.keeps_zero hcmd h0) (by rwa [hs.pending])

/-- Settles O54: the reset registers hold 0, and a run that does not write one leaves it so. -/
theorem unwrittenRegisterReadsZero : Obligations.UnwrittenRegisterReadsZero := by
  intro n s k hreset hw
  obtain ⟨t, ht, h0⟩ := run_keeps_zero n (by rw [hreset, reset_get]) hw
  exact ⟨t, ht, h0, by rw [read_fld, h0]⟩

/-! ### The hardware signals -/

theorem stepSignals_reset {i : Inputs} (s : State) (hr : i.rst = true) :
    stepSignals i s = .next { s with regs := State.reset.regs, response := .none } := by
  simp [stepSignals, Inputs.command, hr, runCommand, runReset]

theorem stepSignals_none {i : Inputs} (s : State) (hr : i.rst = false) (hc : i.cmd = .none) :
    stepSignals i s = .next { s with response := .none } := by
  simp [stepSignals, Inputs.command, hr, hc, runCommand, runIdle]

theorem stepSignals_execute {i : Inputs} (s : State) (hr : i.rst = false) (hc : i.cmd = .execute) :
    stepSignals i s = runExecute i.op.toNat i.a.toNat i.b.toNat i.c.toNat s := by
  simp [stepSignals, Inputs.command, hr, hc, runCommand]

/-- The 16 values at `ld` are 16-bit values, so the load keeps them as they are. -/
theorem stepSignals_replaceAll {i : Inputs} (s : State) (hr : i.rst = false) (hc : i.cmd = .replaceAll) :
    stepSignals i s = .next { s with regs := i.ld, response := .replaced } := by
  simp [stepSignals, Inputs.command, hr, hc, runCommand, runReplaceAll_of_ofValues s (ofValues_toNat i.ld)]

theorem stepSignals_snapshot {i : Inputs} (s : State) (hr : i.rst = false) (hc : i.cmd = .snapshot) :
    stepSignals i s = .next { s with response := .snapshot s.regs } := by
  simp [stepSignals, Inputs.command, hr, hc, runCommand, runSnapshot, RegFile.values]

/-- Settles O44, by `rst` and then by `cmd`: an execute at the signals has fields in range, a bulk replace 16 values. -/
theorem signalStepsAreServed : Obligations.SignalStepsAreServed := by
  intro i s
  cases hr : i.rst with
  | true => exact ⟨_, stepSignals_reset s hr, by simp⟩
  | false =>
    cases hc : i.cmd with
    | none => exact ⟨_, stepSignals_none s hr hc, by simp⟩
    | execute =>
      have h := stepSignals_execute s hr hc
      have hexec : stepSignals i s = exec (instrOfOpcode i.op i.a.toNat i.b.toNat i.c.toNat) s :=
        h.trans (runExecute_of_decodeTuple s (decodeTuple_fld i.op.toFin i.a.toFin i.b.toFin i.c.toFin))
      exact ⟨_, h.trans (runExecute_fld i.op.toFin i.a.toFin i.b.toFin i.c.toFin s), by simpa using hexec⟩
    | replaceAll => exact ⟨_, stepSignals_replaceAll s hr hc, by simp⟩
    | snapshot => exact ⟨_, stepSignals_snapshot s hr hc, by simp⟩

end Machine

end Sys2Proof

/-! SUPPORT. The refinement of a run: each operation does on the registers what the reference does on their map, and a
run serves the presented list one operation at a time; then the statement on the order of the operations. -/

namespace Sys2Proof.Machine

/-! ### The map of a whole register file -/

/-- A map that is 0 outside the indices and has the registers' values at them is the map of the register file. -/
theorem asMap_eq {f : RegFile} {x : Int → Nat} (hout : ∀ i, ¬FieldInRange i → x i = 0)
    (hin : ∀ k : Fin 16, x (fld k) = f[k].toNat) : f.asMap = x := by
  funext i
  by_cases hi : FieldInRange i
  · obtain ⟨k, rfl⟩ := exists_fld hi
    rw [asMap_fld, hin]
  · rw [asMap_outside f hi, hout i hi]

theorem asMap_reset : State.reset.regs.asMap = fun _ => 0 :=
  asMap_eq (fun _ _ => rfl) fun k => by rw [reset_get]; rfl

/-- The registers after a bulk replace are the given numbers modulo 2^16, in index order (10_state.md R27). -/
theorem asMap_ofValues {values : List Nat} {f : RegFile} (hl : values.length = 16)
    (hf : RegFile.ofValues values = .ok f) :
    f.asMap = fun i => if 0 ≤ i ∧ i ≤ 15 then values.getD i.toNat 0 % 65536 else 0 := by
  obtain ⟨g, hg, hget⟩ := ofValues_get hl
  obtain rfl : g = f := Except.ok.inj (hg.symm.trans hf)
  refine asMap_eq (fun i hi => if_neg hi) fun k => ?_
  have hk : k.val < values.length := by omega
  rw [if_pos (fld_inRange k), hget, mask16_natCast]
  simp [fld, hk]

/-! ### One operation -/

/-- A served operation leaves the registers and gives the answer of the reference (20_memory.md R46). -/
theorem Served.refines {s t : State} {cmd : Command} (h : Served s cmd t) :
    Reference.serve cmd s.regs.asMap = (t.regs.asMap, t.response.answer) := by
  cases h with
  | idle | snapshot => rfl
  | executeRejected h => simp only [Reference.serve, reference_execute_outside _ h]; rfl
  | executed o a b c => simp only [Reference.serve, reference_execute_fld]; rfl
  | replaceRejected hl => exact if_neg hl
  | replaced hl hf => rw [asMap_ofValues hl hf]; exact if_pos hl
  | reset => rw [asMap_reset]; rfl

/-! ### A run -/

/-- The answers of a run whose first step answers `t` are `t`'s answer and then those of the run from `t`. -/
theorem answers_succ {s t : State} (n : Nat) (h : step s = .next t) :
    answers (n + 1) s = t.response.answer :: answers n t := by
  simp only [answers, h]

theorem reference_run_cons (cmd : Command) (rest : List Command) (x : Int → Nat) :
    Reference.run (cmd :: rest) x =
      ((Reference.run rest (Reference.serve cmd x).1).1,
        (Reference.serve cmd x).2 :: (Reference.run rest (Reference.serve cmd x).1).2) := rfl

/-- As many steps as there are operations in the list serve all of them, as the reference does. -/
theorem run_refines {cmds : List Command} {s : State} (hp : s.pending = cmds) :
    ∃ t, core.run cmds.length s = .next t ∧ t.pending = [] ∧
      t.regs.asMap = (Reference.run cmds s.regs.asMap).1 ∧
      answers cmds.length s = (Reference.run cmds s.regs.asMap).2 := by
  induction cmds generalizing s with
  | nil => exact ⟨s, rfl, hp, rfl, rfl⟩
  | cons cmd rest ih =>
    obtain ⟨u, hu, hserved⟩ := runCommand_served cmd { s with pending := rest }
    have hstep : step s = .next u := (step_cons hp).trans hu
    obtain ⟨t, hrun, hdone, hregs, hanswers⟩ := ih hserved.pending
    refine ⟨t, (run_succ rest.length hstep).trans hrun, hdone, ?_, ?_⟩
    · rw [reference_run_cons, hserved.refines, hregs]
    · rw [reference_run_cons, hserved.refines, List.length_cons, answers_succ _ hstep, hanswers]

/-- Settles O49, by induction on the presented list: the first operation is served as the reference serves it, and the
run goes on from the state it leaves. -/
theorem runServesOperationsInOrder : Obligations.RunServesOperationsInOrder :=
  fun _ => run_refines rfl

end Sys2Proof.Machine

/-! SUPPORT. The rules of the packed word: its fields as numbers, the opcode map inverted, a tuple's fields as the fields
of a word, and an execute whose fields are in range; then the statements on encoding, decoding and the idioms. -/

namespace Sys2Proof

/-! ### The fields of a packed word -/

/-- The fields of a packed word are its nibbles from the most significant down (30_encoding.md R52, decision D3). -/
theorem unpackWord_toNat (w : Word) :
    (unpackWord w).op.toNat = w.toNat / 4096 ∧ (unpackWord w).a.toNat = w.toNat / 256 % 16 ∧
      (unpackWord w).b.toNat = w.toNat / 16 % 16 ∧ (unpackWord w).c.toNat = w.toNat % 16 := by
  have h := w.isLt
  simp only [unpackWord, BitVec.extractLsb'_toNat, Nat.shiftRight_eq_div_pow, Config.opLow, Config.aLow, Config.bLow,
    Config.cLow, Nat.reducePow, Nat.div_one, and_true]
  omega

theorem unpackWord_encode (i : Instr) :
    unpackWord (encode i) =
      { op := BitVec.ofNat 4 i.opcode
        a := BitVec.ofNat 4 i.fieldA.toNat
        b := BitVec.ofNat 4 i.fieldB.toNat
        c := BitVec.ofNat 4 i.fieldC.toNat } :=
  unpack_pack _

theorem toNat_inRange (v : BitVec 4) : FieldInRange (v.toNat : Int) :=
  Machine.fld_inRange v.toFin

/-- A field in [0,15] survives the 4 bits of a packed word. -/
theorem toNat_ofNat_of_inRange {v : Int} (h : FieldInRange v) : ((BitVec.ofNat 4 v.toNat).toNat : Int) = v := by
  obtain ⟨k, rfl⟩ := Machine.exists_fld h
  rw [Machine.ofNat_fld]
  rfl

/-! ### The opcode map -/

/-- The row of the opcode map at an instruction's own opcode is the instruction (30_encoding.md R56). -/
theorem instrOfOpcode_self (i : Instr) :
    instrOfOpcode (BitVec.ofNat 4 i.opcode) i.fieldA i.fieldB i.fieldC = i := by
  cases i <;> rfl

theorem decodeWord_wellFormed (w : Word) : (decodeWord w).WellFormed := by
  simp only [decodeWord, Instr.WellFormed, instrOfOpcode_fieldA, instrOfOpcode_fieldB, instrOfOpcode_fieldC]
  exact ⟨toNat_inRange _, toNat_inRange _, toNat_inRange _⟩

/-- The packed word of a row of the opcode map with 4-bit fields is those fields, packed. -/
theorem encode_instrOfOpcode (t : FieldTuple) :
    encode (instrOfOpcode t.op t.a.toNat t.b.toNat t.c.toNat) = packWord t := by
  simp [encode, instrOfOpcode_opcode]

/-- Settles O2: the word's fields are the instruction's own, and the opcode map at its opcode is the instruction. -/
theorem decodeOfEncodeIsTheInstruction : Obligations.DecodeOfEncodeIsTheInstruction := by
  intro i hi
  obtain ⟨ha, hb, hc⟩ := hi
  simp only [decodeWord, unpackWord_encode, toNat_ofNat_of_inRange ha, toNat_ofNat_of_inRange hb,
    toNat_ofNat_of_inRange hc]
  exact instrOfOpcode_self i

/-- Settles O3: a word's instruction has the word's fields, and those packed are the word. -/
theorem encodeOfDecodeIsTheWord : Obligations.EncodeOfDecodeIsTheWord :=
  fun w => ⟨decodeWord_wellFormed w, (encode_instrOfOpcode (unpackWord w)).trans (pack_unpack w)⟩

/-- Settles O4: packing and unpacking are inverse to each other. -/
theorem packedWordsAreExactlyTheTuples : Obligations.PackedWordsAreExactlyTheTuples := by
  refine ⟨unpackWord_toNat, fun t => ⟨packWord t, unpack_pack t, fun w hw => ?_⟩⟩
  rw [← hw, pack_unpack]

theorem classOutput_iff (op : BitVec 4) (cls : OpClass) : classOutput op cls = true ↔ decodeClass op = cls :=
  decide_eq_true_iff

/-- Settles O5: the one class asserted is the decoder's answer, which the opcode map gives, and a tuple in range is the
row of that map at its opcode. -/
theorem opcodeAloneFixesTheClass : Obligations.OpcodeAloneFixesTheClass := by
  refine ⟨fun op => ⟨decodeClass op, (classOutput_iff op _).2 rfl, fun cls h => ((classOutput_iff op cls).1 h).symm⟩,
    fun op cls => ?_, fun op a b c => ⟨_, Machine.decodeTuple_fld op a b c, ?_⟩⟩
  · rw [classOutput_iff]
    cases cls <;> revert op <;> decide
  · simp [instrOfOpcode_opcode]

namespace Machine

/-! ### A well-formed instruction by its class -/

/-- An instruction with the fields of three indices answers the result and the registers of its class. -/
theorem exec_fld {i : Instr} {a b c : Fin 16} (ha : i.fieldA = fld a) (hb : i.fieldB = fld b) (hc : i.fieldC = fld c)
    (s : State) :
    exec i s =
      .next { s with
        regs := regsAfter i.cls a b c s.regs
        response := .executed (resultMux i.cls s.regs[a] s.regs[b] (fld b)) (regsAfter i.cls a b c s.regs) } := by
  rw [exec_eq_runDatapath, ha, hb, hc, runDatapath_serves]

/-- The classes by form: NOT alone ignores B, LOAD_IMMEDIATE alone C, and INVALID every field (30_encoding.md R54). -/
theorem form_cases (cls : OpClass) :
    cls.form = .rrr ∨ cls = .not ∨ cls = .loadImmediate ∨ cls = .invalid := by
  cases cls <;> decide

/-- Settles O7, by the form of the class: the result and the write read no field that the form ignores. -/
theorem ignoredFieldsChangeNothing : Obligations.IgnoredFieldsChangeNothing := by
  intro i j s ⟨hia, hib, hic⟩ ⟨hja, hjb, hjc⟩ hcls hsame
  obtain ⟨a, ha⟩ := exists_fld hia
  obtain ⟨b, hb⟩ := exists_fld hib
  obtain ⟨c, hc⟩ := exists_fld hic
  obtain ⟨a', ha'⟩ := exists_fld hja
  obtain ⟨b', hb'⟩ := exists_fld hjb
  obtain ⟨c', hc'⟩ := exists_fld hjc
  rw [exec_fld ha hb hc, exec_fld ha' hb' hc', ← hcls]
  simp only [Instr.SameUsedFields, ha, hb, hc, ha', hb', hc'] at hsame
  obtain h | h | h | h := form_cases i.cls <;> rw [h] at hsame
  · obtain ⟨ea, eb, ec⟩ := hsame
    rw [fld_injective ea, fld_injective eb, fld_injective ec]
  · obtain ⟨ea, ec⟩ := hsame
    rw [h, fld_injective ea, fld_injective ec]
    rfl
  · obtain ⟨ea, eb⟩ := hsame
    rw [h, fld_injective ea, fld_injective eb]
    rfl
  · rw [h]
    rfl

/-! ### The idioms -/

/-- An instruction of a class whose destination is field C leaves the result there and every other register as it was. -/
theorem exec_writes_fieldC {i : Instr} {cls : OpClass} (hcls : i.cls = cls) (hi : cls ≠ .invalid)
    (hl : cls ≠ .loadImmediate) {a b c : Fin 16} (ha : i.fieldA = fld a) (hb : i.fieldB = fld b)
    (hc : i.fieldC = fld c) {s : State} {z : Word} (hz : resultMux cls s.regs[a] s.regs[b] (fld b) = z) :
    ∃ t : State, exec i s = .next t ∧ t.regs = s.regs.set c z := by
  subst hcls
  exact ⟨_, exec_fld ha hb hc s, hz ▸ regsAfter_fieldC hi hl a b c s.regs⟩

theorem exec_loadImmediate_zero (d c : Fin 16) (s : State) :
    ∃ t : State, exec (.loadImmediate (fld d) (fld 0) (fld c)) s = .next t ∧ t.regs = s.regs.set d 0 :=
  ⟨_, exec_fld rfl rfl rfl s, rfl⟩

/-- A product with 2^n is a left shift by n. -/
theorem aluMul_of_toNat_eq_two_pow {x y : Word} {n : Nat} (hn : n ≤ 15) (hy : y.toNat = 2 ^ n) :
    aluMul x y = x <<< n := by
  have : y = BitVec.twoPow 16 n := BitVec.eq_of_toNat_eq (by
    rw [hy, BitVec.toNat_twoPow, Nat.mod_eq_of_lt (Nat.pow_lt_pow_right (by decide) (by omega))])
  rw [aluMul_eq, this, BitVec.shiftLeft_eq_mul_twoPow]

/-- Settles O34: each idiom is the value of its ALU function on equal, zero or power-of-two operands. -/
theorem idiomsDoWhatTheyAreFor : Obligations.IdiomsDoWhatTheyAreFor := by
  intro r k d s
  refine ⟨exec_writes_fieldC (cls := .or) rfl (by decide) (by decide) rfl rfl rfl BitVec.or_self,
    exec_writes_fieldC (cls := .and) rfl (by decide) (by decide) rfl rfl rfl BitVec.and_self,
    exec_writes_fieldC (cls := .xor) rfl (by decide) (by decide) rfl rfl rfl BitVec.xor_self,
    exec_writes_fieldC (cls := .sub) rfl (by decide) (by decide) rfl rfl rfl ?_,
    exec_loadImmediate_zero d 0 s, ?_, fun hk => ?_, fun n hn hk => ?_⟩
  · exact (aluSub_eq _ _).trans (BitVec.sub_self _)
  · obtain ⟨t, ht, hregs⟩ := exec_loadImmediate_zero d 0 s
    have hz : aluNot t.regs[d] = 0xFFFF := by
      rw [hregs, get_set_same]
      rfl
    obtain ⟨u, hu, hu'⟩ := exec_writes_fieldC (i := .not (fld d) (fld 0) (fld d)) (cls := .not) rfl (by decide)
      (by decide) rfl (b := 0) rfl rfl hz
    refine ⟨t, u, ht, hu, ?_⟩
    rw [hu', hregs, Vector.set_set]
  · refine exec_writes_fieldC (cls := .sub) rfl (by decide) (by decide) rfl rfl rfl ?_
    rw [hk]
    exact (aluSub_eq _ _).trans (BitVec.zero_sub _)
  · exact exec_writes_fieldC (cls := .mul) rfl (by decide) (by decide) rfl rfl rfl (aluMul_of_toNat_eq_two_pow hn hk)

/-! ### A presented word -/

/-- Presenting a word presents the execute of its four fields, and the step serves it. -/
theorem step_withFetchWord (s : State) (w : Word) :
    step (s.withFetchWord 16 w.toNat) =
      runExecute (unpackWord w).op.toNat (unpackWord w).a.toNat (unpackWord w).b.toNat (unpackWord w).c.toNat s := by
  obtain ⟨hop, ha, hb, hc⟩ := unpackWord_toNat w
  rw [hop, ha, hb, hc]
  have hv : w.toNat % 2 ^ 16 = w.toNat := Nat.mod_eq_of_lt w.isLt
  have hp : (s.withFetchWord 16 w.toNat).pending =
      .execute ((w.toNat / 4096 : Nat) : Int) ((w.toNat / 256 % 16 : Nat) : Int) ((w.toNat / 16 % 16 : Nat) : Int)
        ((w.toNat % 16 : Nat) : Int) :: s.pending := by
    simp only [State.withFetchWord, State.presentTableWord, hv]
    rfl
  exact step_cons hp

theorem decodeTableWord_toNat (w : Word) : decodeTableWord 16 w.toNat = some (decodeWord w) := by
  have hv : w.toNat % 2 ^ 16 = w.toNat := Nat.mod_eq_of_lt w.isLt
  simp only [decodeTableWord, hv, w.isLt, if_true, BitVec.ofNat_toNat, BitVec.setWidth_eq]

/-- The tuple of a word's fields decodes to the instruction of the word. -/
theorem decodeTuple_unpackWord (w : Word) :
    decodeTuple (unpackWord w).op.toNat (unpackWord w).a.toNat (unpackWord w).b.toNat (unpackWord w).c.toNat =
      .ok (decodeWord w) :=
  decodeTuple_fld (unpackWord w).op.toFin (unpackWord w).a.toFin (unpackWord w).b.toFin (unpackWord w).c.toFin

/-- Settles O9: the step serves the execute of the word's fields, and that tuple decodes to the word's instruction. -/
theorem presentedWordRunsItsInstruction : Obligations.PresentedWordRunsItsInstruction :=
  fun s w => ⟨decodeTableWord_toNat w,
    (step_withFetchWord s w).trans (runExecute_of_decodeTuple s (decodeTuple_unpackWord w))⟩

end Machine

end Sys2Proof

/-! SUPPORT. The assembler's two readings side by side: each operand reader is the number its text writes, and a line is
refused by its mnemonic, by its number of operands, or read operand by operand; then the statements on the assembler. -/

namespace Sys2Proof.Machine

open Sys2Proof.Reference (OperandPlace operandPlaces isMnemonic lineTuple rrrCode tupleOf)

/-! ### One operand -/

/-- A number in one of the three bases is read as the reference reads it (30_encoding.md R62). -/
theorem natural_eq (t : List Char) : natural t = Reference.numeralAnyBase t := by
  unfold natural
  split
  · simp [Reference.numeralAnyBase, digits_eq_numeral]
  · simp [Reference.numeralAnyBase, digits_eq_numeral]
  · next hx hb =>
    have take_two {c d : Char} (h : t.take 2 = [c, d]) : t = c :: d :: t.drop 2 := by
      rw [← List.take_append_drop 2 t, h]; rfl
    have h16 : t.take 2 ≠ "0x".toList := fun h => hx _ (take_two h)
    have h2 : t.take 2 ≠ "0b".toList := fun h => hb _ (take_two h)
    rw [Reference.numeralAnyBase, if_neg h16, if_neg h2, digits_eq_numeral (by simp)]

theorem registerOperand_eq (t : List Char) :
    registerOperand t =
      if t.head? = some 'r' then inField .registerOutOfRange t.tail (digits 10) else .error .malformedOperand := by
  unfold registerOperand
  split
  · rfl
  · next h => exact (if_neg fun hr => (List.head?_eq_some_iff.1 hr).elim h).symm

theorem immediateOperand_eq (t : List Char) :
    immediateOperand t =
      if t.head? = some '#' then inField .immediateOutOfRange t.tail natural else .error .malformedOperand := by
  unfold immediateOperand
  split
  · rfl
  · next h => exact (if_neg fun hr => (List.head?_eq_some_iff.1 hr).elim h).symm

/-- Everything the reader of a place can do, by the number the text writes (30_encoding.md R64). -/
theorem read_eq (p : OperandPlace) (t : List Char) :
    p.read t =
      match p.number t with
      | none => .error .malformedOperand
      | some n => if h : 0 ≤ n ∧ n ≤ 15 then .ok ⟨n.toNat, by omega⟩ else .error p.outOfRange := by
  have hnat : natural = Reference.numeralAnyBase := funext natural_eq
  have hdec : digits 10 = Reference.numeral 10 := funext (digits_eq_numeral (by simp))
  cases p with
  | register =>
    simp only [OperandPlace.read, OperandPlace.number, registerOperand_eq, inField_eq, hdec]
    split <;> rfl
  | immediate =>
    simp only [OperandPlace.read, OperandPlace.number, immediateOperand_eq, inField_eq, hnat]
    split <;> rfl
  | insnField =>
    simp only [OperandPlace.read, OperandPlace.number, fieldOperand, inField_eq, hnat]
    rfl

/-- A text that writes no number of its place is refused as such (log entry 9). -/
theorem read_of_number_none {p : OperandPlace} {t : List Char} (h : p.number t = none) :
    p.read t = .error .malformedOperand := by
  simp only [read_eq, h]

theorem read_of_number_outside {p : OperandPlace} {t : List Char} {n : Int} (h : p.number t = some n)
    (hn : ¬(0 ≤ n ∧ n ≤ 15)) : p.read t = .error p.outOfRange := by
  simp only [read_eq, h, dif_neg hn]

theorem read_of_number_fld {p : OperandPlace} {t : List Char} {k : Fin 16} (h : p.number t = some (fld k)) :
    p.read t = .ok k := by
  simp only [read_eq, h, dif_pos (fld_inRange k)]
  rfl

theorem read_eq_ok_iff {p : OperandPlace} {t : List Char} {k : Fin 16} :
    p.read t = .ok k ↔ p.number t = some (fld k) := by
  refine ⟨fun hk => ?_, read_of_number_fld⟩
  cases h : p.number t with
  | none => rw [read_of_number_none h] at hk; nomatch hk
  | some n =>
    by_cases hn : 0 ≤ n ∧ n ≤ 15
    · obtain ⟨j, rfl⟩ := exists_fld hn
      obtain rfl := Except.ok.inj ((read_of_number_fld h).symm.trans hk)
      rfl
    · rw [read_of_number_outside h hn] at hk; nomatch hk

/-! ### Instructions and tuples -/

theorem instrOfOpcode_wellFormed (op : BitVec 4) (a b c : Fin 16) :
    (instrOfOpcode op (fld a) (fld b) (fld c)).WellFormed := by
  simp only [Instr.WellFormed, instrOfOpcode_fieldA, instrOfOpcode_fieldB, instrOfOpcode_fieldC]
  exact ⟨fld_inRange a, fld_inRange b, fld_inRange c⟩

theorem tupleOf_instrOfOpcode (op : BitVec 4) (a b c : Int) :
    tupleOf (instrOfOpcode op a b c) = [(op.toNat : Int), a, b, c] := by
  simp [tupleOf, instrOfOpcode_opcode]

theorem opcode_le (i : Instr) : i.opcode ≤ 15 := by
  cases i <;> exact Nat.le_of_ble_eq_true rfl

/-- An instruction is its tuple. -/
theorem tupleOf_injective {i j : Instr} (h : tupleOf i = tupleOf j) : i = j := by
  simp only [tupleOf, List.cons.injEq, Nat.cast_inj, and_true] at h
  obtain ⟨hop, ha, hb, hc⟩ := h
  rw [← instrOfOpcode_self i, hop, ha, hb, hc, instrOfOpcode_self]

theorem inRange_of_mem_tupleOf {i : Instr} (hi : i.WellFormed) {n : Int} (h : n ∈ tupleOf i) : FieldInRange n := by
  obtain ⟨ha, hb, hc⟩ := hi
  simp only [tupleOf, List.mem_cons, List.not_mem_nil, or_false] at h
  obtain rfl | rfl | rfl | rfl := h
  · have := opcode_le i
    omega
  · exact ha
  · exact hb
  · exact hc

/-- The tuple a line stands for holds every number the line writes. -/
theorem mem_lineTuple (m : List Char) (numbers : List Int) {n : Int} (h : n ∈ numbers) : n ∈ lineTuple m numbers := by
  unfold lineTuple
  split
  · exact .tail _ h
  · split
    · split
      · simp only [List.mem_cons, List.not_mem_nil, or_false] at h ⊢; tauto
      · exact .tail _ h
    · split
      · split
        · simp only [List.mem_cons, List.not_mem_nil, or_false] at h ⊢; tauto
        · exact .tail _ h
      · exact h

/-! ### The operands of a form -/

/-- A form's answer, reading its operands in order: the refusal of the first operand refused, else a well-formed
instruction whose tuple is the one the numbers read stand for (`assembleForm_answer`). -/
inductive Assembles : (List Int → List Int) → List OperandPlace → List (List Char) → Except AsmError Instr → Prop where
  | done {tuple : List Int → List Int} {i : Instr} (hw : i.WellFormed) (ht : tupleOf i = tuple []) :
      Assembles tuple [] [] (.ok i)
  | accepted {tuple : List Int → List Int} {p : OperandPlace} {t : List Char} {places : List OperandPlace}
      {texts : List (List Char)} {r : Except AsmError Instr} {k : Fin 16} (hk : p.read t = .ok k)
      (h : Assembles (fun numbers => tuple (fld k :: numbers)) places texts r) :
      Assembles tuple (p :: places) (t :: texts) r
  | refused {tuple : List Int → List Int} {p : OperandPlace} {t : List Char} {places : List OperandPlace}
      {texts : List (List Char)} {e : AsmError} (he : p.read t = .error e) :
      Assembles tuple (p :: places) (t :: texts) (.error e)

/-- Reading one operand and going on with its value. -/
theorem Assembles.bind {tuple : List Int → List Int} {p : OperandPlace} {t : List Char} {places : List OperandPlace}
    {texts : List (List Char)} {cont : Fin 16 → Except AsmError Instr}
    (h : ∀ k, Assembles (fun numbers => tuple (fld k :: numbers)) places texts (cont k)) :
    Assembles tuple (p :: places) (t :: texts) (p.read t >>= cont) := by
  cases hr : p.read t with
  | error e => exact .refused hr
  | ok k => exact .accepted hr (h k)

/-- A row of the opcode map, once its operands are read. -/
theorem Assembles.done_instrOfOpcode {tuple : List Int → List Int} (op : BitVec 4) (a b c : Fin 16)
    (ht : tuple [] = [(op.toNat : Int), fld a, fld b, fld c]) :
    Assembles tuple [] [] (.ok (instrOfOpcode op (fld a) (fld b) (fld c))) :=
  .done (instrOfOpcode_wellFormed op a b c) ((tupleOf_instrOfOpcode op _ _ _).trans ht.symm)

/-- A form whose tuple holds every number read is accepted exactly as the well-formed instruction of that tuple. -/
theorem Assembles.eq_ok_iff {tuple : List Int → List Int} {places : List OperandPlace} {texts : List (List Char)}
    {r : Except AsmError Instr} (h : Assembles tuple places texts r)
    (hmem : ∀ numbers, ∀ n ∈ numbers, n ∈ tuple numbers) (i : Instr) :
    r = .ok i ↔ i.WellFormed ∧ ∃ numbers : List Int,
      List.zipWith OperandPlace.number places texts = numbers.map some ∧ tupleOf i = tuple numbers := by
  induction h with
  | @done tuple j hw ht =>
    constructor
    · intro hj
      obtain rfl := Except.ok.inj hj
      exact ⟨hw, [], rfl, ht⟩
    · rintro ⟨-, numbers, hn, hi⟩
      obtain rfl : numbers = [] := by simpa using hn
      rw [tupleOf_injective (hi.trans ht.symm)]
  | @accepted tuple p t places texts r k hk _ ih =>
    rw [ih fun numbers n hn => hmem _ n (.tail _ hn)]
    rw [read_eq_ok_iff] at hk
    refine and_congr_right fun _ => ⟨fun ⟨numbers, hn, hi⟩ => ⟨fld k :: numbers, by simp [hk, hn], hi⟩, ?_⟩
    rintro ⟨_ | ⟨n, numbers⟩, hn, hi⟩
    · simp at hn
    · simp only [List.zipWith_cons_cons, hk, List.map_cons, List.cons.injEq, Option.some.injEq] at hn
      obtain ⟨rfl, hn⟩ := hn
      exact ⟨numbers, hn, hi⟩
  | @refused tuple p t places texts e he =>
    refine ⟨nofun, ?_⟩
    rintro ⟨hw, _ | ⟨n, numbers⟩, hn, hi⟩
    · simp at hn
    · simp only [List.zipWith_cons_cons, List.map_cons, List.cons.injEq] at hn
      have hin : n ∈ tupleOf i := hi ▸ hmem _ n (.head _)
      obtain ⟨k, rfl⟩ := exists_fld (inRange_of_mem_tupleOf hw hin)
      rw [read_of_number_fld hn.1] at he
      nomatch he

/-- A refused operand refuses the line, and gives the kind of the refusal when the operands before it are accepted. -/
theorem Assembles.refuses {tuple : List Int → List Int} {places : List OperandPlace} {texts : List (List Char)}
    {r : Except AsmError Instr} (h : Assembles tuple places texts r) {j : Nat} {p : OperandPlace} {t : List Char}
    {e : AsmError} (hp : places[j]? = some p) (ht : texts[j]? = some t) (he : p.read t = .error e) :
    (∃ e', r = .error e') ∧
      ((∀ (l : Nat) (q : OperandPlace) (u : List Char), l < j → places[l]? = some q → texts[l]? = some u →
        ∃ k, q.read u = .ok k) → r = .error e) := by
  induction h generalizing j with
  | done => simp at hp
  | @accepted tuple q u places texts r k hk _ ih =>
    cases j with
    | zero =>
      obtain rfl := Option.some.inj hp
      obtain rfl := Option.some.inj ht
      rw [hk] at he
      nomatch he
    | succ j =>
      obtain ⟨herr, hfirst⟩ := ih hp ht
      exact ⟨herr, fun hbefore => hfirst fun l q u hl hq hu => hbefore (l + 1) q u (by omega) hq hu⟩
  | @refused tuple q u places texts e' he' =>
    refine ⟨⟨e', rfl⟩, fun hbefore => ?_⟩
    cases j with
    | zero =>
      obtain rfl := Option.some.inj hp
      obtain rfl := Option.some.inj ht
      exact congrArg _ (Except.error.inj (he'.symm.trans he))
    | succ j =>
      obtain ⟨k, hk⟩ := hbefore 0 q u (by omega) rfl rfl
      rw [he'] at hk
      nomatch hk

/-! ### The forms of a mnemonic -/

theorem lookup_ofList_cons (m : List Char) (name : String) (code : Int) (rest : List (String × Int)) :
    ((name, code) :: rest).lookup (String.ofList m) =
      if m = name.toList then some code else rest.lookup (String.ofList m) := by
  rw [List.lookup_cons]
  by_cases h : String.ofList m = name
  · rw [beq_iff_eq.2 h, if_pos (String.ofList_eq.1 h)]
  · rw [beq_false_of_ne h, if_neg (mt String.ofList_eq.2 h)]

/-- Both readings have the same mnemonics of the RRR form, with the same opcodes. -/
theorem rrrCode_eq (m : List Char) : rrrCode m = (rrrOpcode m).map fun op => (op.toNat : Int) := by
  simp only [rrrCode, Reference.rrrCodes, lookup_ofList_cons, List.lookup_nil, rrrOpcode, apply_ite (Option.map _)]
  rfl

/-- Everything the assembler can do with a mnemonic and its operand texts. -/
inductive FormAnswer (m : List Char) (operands : List (List Char)) (r : Except AsmError Instr) : Prop where
  | unknownMnemonic (hm : isMnemonic m = false) (hp : operandPlaces m operands.length = none)
      (hr : r = .error .unknownMnemonic)
  | wrongOperandCount (hm : isMnemonic m = true) (hp : operandPlaces m operands.length = none)
      (hr : r = .error .wrongOperandCount)
  | read {places : List OperandPlace} (hm : isMnemonic m = true) (hp : operandPlaces m operands.length = some places)
      (h : Assembles (lineTuple m) places operands r)

theorem assembleRrr_answer {m : List Char} {op : BitVec 4} (hm : rrrCode m = some (op.toNat : Int))
    (operands : List (List Char)) : FormAnswer m operands (assembleRrr op operands) := by
  have hmn : isMnemonic m = true := by simp [isMnemonic, hm]
  have htuple (numbers : List Int) : lineTuple m numbers = (op.toNat : Int) :: numbers := by simp only [lineTuple, hm]
  unfold assembleRrr
  split
  · next ta tb tc =>
    refine .read (places := [.register, .register, .register]) hmn (by simp [operandPlaces, hm]) ?_
    exact .bind fun a => .bind fun b => .bind fun c => .done_instrOfOpcode op a b c (htuple _)
  · next hx =>
    refine .wrongOperandCount hmn ?_ rfl
    have : operands.length ≠ 3 := fun hl => by
      obtain ⟨ta, tb, tc, rfl⟩ := List.length_eq_three.1 hl
      exact hx ta tb tc rfl
    simp [operandPlaces, hm, this]

theorem assembleNot_answer (operands : List (List Char)) :
    FormAnswer "NOT".toList operands (assembleNot operands) := by
  match operands with
  | [ta, tc] =>
    exact .read (places := [.register, .register]) rfl rfl
      (.bind fun a => .bind fun c => .done_instrOfOpcode 6 a 0 c rfl)
  | [ta, tb, tc] =>
    exact .read (places := [.register, .register, .register]) rfl rfl
      (.bind fun a => .bind fun b => .bind fun c => .done_instrOfOpcode 6 a b c rfl)
  | [] | [_] | _ :: _ :: _ :: _ :: _ => exact .wrongOperandCount rfl rfl rfl

theorem assembleLoadImmediate_answer (operands : List (List Char)) :
    FormAnswer "LOAD_IMMEDIATE".toList operands (assembleLoadImmediate operands) := by
  match operands with
  | [ta, tb] =>
    exact .read (places := [.register, .immediate]) rfl rfl
      (.bind fun a => .bind fun b => .done_instrOfOpcode 15 a b 0 rfl)
  | [ta, tb, tc] =>
    exact .read (places := [.register, .immediate, .register]) rfl rfl
      (.bind fun a => .bind fun b => .bind fun c => .done_instrOfOpcode 15 a b c rfl)
  | [] | [_] | _ :: _ :: _ :: _ :: _ => exact .wrongOperandCount rfl rfl rfl

theorem assembleInsn_answer (operands : List (List Char)) :
    FormAnswer ".insn".toList operands (assembleInsn operands) := by
  match operands with
  | [top, ta, tb, tc] =>
    exact .read (places := [.insnField, .insnField, .insnField, .insnField]) rfl rfl
      (.bind fun op => .bind fun a => .bind fun b => .bind fun c => .done_instrOfOpcode (.ofFin op) a b c rfl)
  | [] | [_] | [_, _] | [_, _, _] | _ :: _ :: _ :: _ :: _ :: _ => exact .wrongOperandCount rfl rfl rfl

/-- The assembler's answer, by the mnemonic (30_encoding.md R62, R63). -/
theorem assembleForm_answer (m : List Char) (operands : List (List Char)) :
    FormAnswer m operands (assembleForm m operands) := by
  have hc := rrrCode_eq m
  cases ho : rrrOpcode m with
  | some op =>
    simp only [assembleForm, ho]
    exact assembleRrr_answer (by rw [hc, ho]; rfl) operands
  | none =>
    rw [ho, Option.map_none] at hc
    by_cases hn : m = "NOT".toList
    · subst hn; exact assembleNot_answer operands
    by_cases hl : m = "LOAD_IMMEDIATE".toList
    · subst hl; exact assembleLoadImmediate_answer operands
    by_cases hi : m = ".insn".toList
    · subst hi; exact assembleInsn_answer operands
    refine .unknownMnemonic ?_ ?_ ?_
    · rw [isMnemonic, hc, beq_false_of_ne hn, beq_false_of_ne hl, beq_false_of_ne hi]
      rfl
    · rw [operandPlaces, hc, if_neg hn, if_neg hl, if_neg hi]
      rfl
    · rw [assembleForm, ho]
      simp only [if_neg hn, if_neg hl, if_neg hi]

/-! ### The statements -/

/-- Settles O51: a reader accepts the number its text writes, and a form the instruction of its tuple. -/
theorem assemblerNeverWrapsAnOperand : Obligations.AssemblerNeverWrapsAnOperand := by
  refine ⟨fun p t => ⟨fun _ => read_eq_ok_iff, fun _ h hn => read_of_number_outside h hn, read_of_number_none⟩,
    fun line i => ?_⟩
  obtain ⟨-, hp, hr⟩ | ⟨-, hp, hr⟩ | ⟨-, hp, h⟩ := assembleForm_answer (lineMnemonic line) (lineOperands line)
  · simp [assembleLine, hr, hp]
  · simp [assembleLine, hr, hp]
  · rw [assembleLine, h.eq_ok_iff fun numbers n hn => mem_lineTuple _ numbers hn]
    simp only [hp, Option.some.injEq, exists_and_left, exists_eq_left']

/-- Settles O53, by the assembler's answer to a mnemonic and its operand texts. -/
theorem assemblerRefusesByForm : Obligations.AssemblerRefusesByForm := by
  intro line
  obtain ⟨hm, hp, hr⟩ | ⟨hm, hp, hr⟩ | ⟨hm, hp, h⟩ := assembleForm_answer (lineMnemonic line) (lineOperands line)
  · simp [assembleLine, hm, hp, hr]
  · simp [assembleLine, hm, hp, hr]
  · refine ⟨fun hf => ?_, fun _ hf => ?_, fun places j p t n hpl hj ht hn hout => ?_⟩
    · rw [hm] at hf; nomatch hf
    · rw [hp] at hf; nomatch hf
    · obtain rfl := Option.some.inj (hp.symm.trans hpl)
      obtain ⟨herr, hfirst⟩ := h.refuses hj ht (read_of_number_outside hn hout)
      exact ⟨herr, fun hbefore => hfirst fun l q u hl hq hu =>
        (hbefore l q u hl hq hu).imp fun _ => read_of_number_fld⟩

theorem assembleFrom_cons_error {n : Nat} {line : List Char} {rest : List (List Char)} {e : AsmError}
    (h : assembleLine line = .error e) : assembleFrom n (line :: rest) = .error (n, e) := by
  simp only [assembleFrom, h]

/-- The lines from `n` on assemble exactly when the first line does and the rest do. -/
theorem assembleFrom_cons_eq_ok_iff {n : Nat} {line : List Char} {rest : List (List Char)} {is : List Instr} :
    assembleFrom n (line :: rest) = .ok is ↔
      ∃ i is', assembleLine line = .ok i ∧ assembleFrom (n + 1) rest = .ok is' ∧ is = i :: is' := by
  rw [assembleFrom]
  cases assembleLine line with
  | error e => simp
  | ok i =>
    cases assembleFrom (n + 1) rest with
    | error e => simp
    | ok is' => simp [eq_comm]

/-- The first refused line is named by its number, whatever stands after it (30_encoding.md R64). -/
theorem assembleFrom_append_refused {before after : List (List Char)} {line : List Char} {is : List Instr}
    {e : AsmError} (n : Nat) (hb : assembleFrom n before = .ok is) (hl : assembleLine line = .error e) :
    assembleFrom n (before ++ line :: after) = .error (before.length + n, e) := by
  induction before generalizing n is with
  | nil => simpa using assembleFrom_cons_error hl
  | cons first rest ih =>
    obtain ⟨i, is', hi, hrest, -⟩ := assembleFrom_cons_eq_ok_iff.1 hb
    simp only [List.cons_append, assembleFrom, hi, ih (n + 1) hrest, List.length_cons]
    rw [Nat.add_right_comm, Nat.add_assoc]

/-- A list of lines that assembles gives the instruction of each line, in order (30_encoding.md R65). -/
theorem map_assembleLine_of_assembleFrom {lines : List (List Char)} {is : List Instr} (n : Nat)
    (h : assembleFrom n lines = .ok is) : lines.map assembleLine = is.map .ok := by
  induction lines generalizing n is with
  | nil => obtain rfl := Except.ok.inj h; rfl
  | cons line rest ih =>
    obtain ⟨i, is', hi, hrest, rfl⟩ := assembleFrom_cons_eq_ok_iff.1 h
    simp only [List.map_cons, hi, ih (n + 1) hrest]

/-- Settles O52, by induction on the lines before the refused one, and on all the lines. -/
theorem assemblerNamesTheRefusedLine : Obligations.AssemblerNamesTheRefusedLine := by
  refine ⟨fun before after line is e hb hl => assembleFrom_append_refused 1 hb hl, fun lines is h => ?_⟩
  have hmap := map_assembleLine_of_assembleFrom 1 h
  refine ⟨by simpa using (congrArg List.length hmap).symm, fun n => ?_⟩
  rw [← List.getElem?_map, hmap, List.getElem?_map]

/-- Settles O50: the three lines are run through the assembler. -/
theorem assemblyExamplesGiveTheirWords : Obligations.AssemblyExamplesGiveTheirWords := by
  unfold Obligations.AssemblyExamplesGiveTheirWords
  decide

end Sys2Proof.Machine

/-! SUPPORT. The rules of an execute that its statements need: the nets of the datapath, the value an instruction leaves
in its destination, and an operation served on two states with the same registers; then those statements. -/

namespace Sys2Proof

/-- An instruction has no destination exactly when its class is INVALID (40_execute.md R77). -/
theorem destination_eq_none_iff (i : Instr) : i.destination = none ↔ i.cls = .invalid := by
  simp [destination_eq]

/-- Opcodes 7 to 14 are those of INVALID (30_encoding.md R56). -/
theorem decodeClass_invalid {o : Fin 16} (h7 : 7 ≤ fld o) (h14 : fld o ≤ 14) : decodeClass (.ofFin o) = .invalid := by
  revert o; decide

/-- Settles O6, by the validation of the tuple: a valid one is a row of the opcode map, any other an error. -/
theorem tupleDecodesExactlyInRange : Obligations.TupleDecodesExactlyInRange := by
  intro op a b c
  rw [← validTuple_iff]
  by_cases h : validTuple op a b c = true
  · exact ⟨fun _ => h, fun _ => ⟨_, Machine.decodeTuple_ok h⟩⟩
  · simp [decodeTuple, h]

namespace Machine

/-! ### The nets of the datapath -/

/-- Fields in range: both ports read, whatever the class (40_execute.md R72). -/
theorem datapathNets_fld (cls : OpClass) (a b c : Fin 16) (f : RegFile) :
    datapathNets cls (fld a) (fld b) (fld c) f =
      .ok
        { rdataA := f[a]
          rdataB := f[b]
          z := resultMux cls f[a] f[b] (fld b)
          we := writeEnable cls
          waddr := writeAddress cls (fld a) (fld c)
          wdata := resultMux cls f[a] f[b] (fld b) } := by
  simp only [datapathNets, read_fld]

theorem writeEnable_iff (cls : OpClass) : writeEnable cls = true ↔ cls ≠ .invalid :=
  decide_eq_true_iff

theorem writeAddress_loadImmediate (a c : Int) : writeAddress .loadImmediate a c = a := rfl

/-- Settles O16, from the nets on fields in range and the two functions of the write-enable logic. -/
theorem datapathNetsFollowTheClass : Obligations.DatapathNetsFollowTheClass := by
  intro cls a b c f
  refine ⟨_, datapathNets_fld cls a b c f, rfl, rfl, writeEnable_iff cls, ?_, fun hl => writeAddress_fieldC hl _ _, rfl⟩
  rintro rfl
  exact writeAddress_loadImmediate (fld a) (fld c)

/-! ### The destination after an execute -/

/-- A served instruction leaves its result in its destination (40_execute.md R79, R81). -/
theorem regsAfter_get_of_destination {i : Instr} {a c d : Fin 16} (ha : i.fieldA = fld a) (hc : i.fieldC = fld c)
    (hd : i.destination = some (fld d)) (b : Fin 16) (f : RegFile) :
    (regsAfter i.cls a b c f)[d] = resultMux i.cls f[a] f[b] (fld b) := by
  have hi : i.cls ≠ .invalid := fun hi => by
    rw [(destination_eq_none_iff i).2 hi] at hd
    nomatch hd
  rw [destination_eq, if_neg hi, ha, hc, Option.some.injEq] at hd
  by_cases hl : i.cls = .loadImmediate
  · rw [hl, writeAddress_loadImmediate] at hd
    rw [hl, fld_injective hd, regsAfter_loadImmediate, get_set_same]
    rfl
  · rw [writeAddress_fieldC hl] at hd
    rw [regsAfter_fieldC hi hl, fld_injective hd, get_set_same]

/-- What an instruction leaves in its destination is the result on the registers before the call, whichever of them the
destination is (40_execute.md R79, 70_reset_and_hazards.md R154). -/
theorem exec_get_destination {i : Instr} {a b c d : Fin 16} (ha : i.fieldA = fld a) (hb : i.fieldB = fld b)
    (hc : i.fieldC = fld c) (hd : i.destination = some (fld d)) (s : State) :
    ∃ t : State, exec i s = .next t ∧ t.regs[d] = resultMux i.cls s.regs[a] s.regs[b] (fld b) :=
  ⟨_, exec_fld ha hb hc s, regsAfter_get_of_destination ha hc hd b s.regs⟩

/-- Settles O17: the result is what the destination then holds, and an instruction without one is of class INVALID. -/
theorem wellFormedInstructionReturnsWhatItWrites : Obligations.WellFormedInstructionReturnsWhatItWrites := by
  intro i s ⟨hA, hB, hC⟩
  obtain ⟨a, ha⟩ := exists_fld hA
  obtain ⟨b, hb⟩ := exists_fld hB
  obtain ⟨c, hc⟩ := exists_fld hC
  refine ⟨_, _, exec_fld ha hb hc s, rfl, rfl, fun d hd => regsAfter_get_of_destination ha hc hd b s.regs, fun hd => ?_⟩
  rw [(destination_eq_none_iff i).1 hd]
  rfl

/-- Settles O18: a rejection keeps the registers, and a served instruction every register but its destination. -/
theorem executeChangesOnlyItsDestination : Obligations.ExecuteChangesOnlyItsDestination := by
  intro i s t h
  obtain ⟨-, e⟩ | ⟨a, b, c, ha, hb, hc, e⟩ := exec_cases i s <;>
    obtain rfl := Host.Outcome.next.inj (e.symm.trans h)
  · exact ⟨rfl, fun _ => rfl, fun _ => rfl, fun _ _ => rfl⟩
  · refine ⟨rfl, fun hd => ?_, fun hw => absurd ?_ hw, fun k hk => regsAfter_get_of_not_destination ha hc hk b s.regs⟩
    · rw [(destination_eq_none_iff i).1 hd, regsAfter_invalid]
    · rw [Instr.WellFormed, ha, hb, hc]
      exact ⟨fld_inRange a, fld_inRange b, fld_inRange c⟩

/-- Settles O19: each destination holds the sum or difference of the old values. -/
theorem sourcesAreReadBeforeTheWrite : Obligations.SourcesAreReadBeforeTheWrite := by
  intro k j s
  obtain ⟨t, ht, hadd⟩ := exec_get_destination (i := .add (fld k) (fld k) (fld k)) rfl rfl rfl rfl s
  obtain ⟨u, hu, hclear⟩ := exec_get_destination (i := .sub (fld k) (fld k) (fld k)) rfl rfl rfl rfl s
  obtain ⟨v, hv, hsub⟩ := exec_get_destination (i := .sub (fld k) (fld j) (fld j)) rfl rfl rfl rfl s
  refine ⟨⟨t, ht, ?_⟩, ⟨u, hu, ?_⟩, ⟨v, hv, ?_⟩⟩
  · rw [hadd, Nat.two_mul]
    exact aluAdd_toNat _ _
  · rw [hclear]
    exact (aluSub_eq _ _).trans (BitVec.sub_self _)
  · rw [hsub]
    exact aluSub_toNat _ _

/-! ### An execute in a step -/

/-- Settles O10: the step serves an execute that validation rejects. -/
theorem executeRejectsFieldOutsideRange : Obligations.ExecuteRejectsFieldOutsideRange :=
  fun _ _ _ _ _ _ hp h => (step_cons hp).trans (runExecute_outside _ h)

/-- Settles O13: validation rejects the tuple, which then has no opcode from 7 to 14 with fields in range, or its fields
are those of four indices and the execute answers a result, which is 0 for the class INVALID. -/
theorem executeRaisesOnlyInvalidInstruction : Obligations.ExecuteRaisesOnlyInvalidInstruction := by
  intro s op a b c rest hp
  obtain h | ⟨o, ka, kb, kc, rfl, rfl, rfl, rfl⟩ := tuple_cases op a b c
  · refine ⟨_, (step_cons hp).trans (runExecute_outside _ h), .inl rfl, fun h7 h14 ha hb hc => ?_⟩
    exact absurd ⟨⟨by omega, by omega⟩, ha, hb, hc⟩ h
  · refine ⟨_, (step_cons hp).trans (runExecute_fld o ka kb kc _), .inr ⟨_, rfl⟩, fun h7 h14 _ _ _ => ?_⟩
    rw [decodeClass_invalid h7 h14]
    rfl

/-! ### Two states with the same registers -/

/-- An operation served on one state is served on every state with the same registers, to the same registers and with
the same response (40_execute.md R84, 10_state.md R33). -/
theorem Served.same_on_same_regs {s s' t : State} {cmd : Command} (h : Served s cmd t) (hr : s.regs = s'.regs) :
    ∃ t', runCommand cmd s' = .next t' ∧ t.regs = t'.regs ∧ t.response = t'.response := by
  obtain ⟨regs, pending, response⟩ := s
  obtain rfl : regs = s'.regs := hr
  cases h with
  | idle | snapshot | reset => exact ⟨_, rfl, rfl, rfl⟩
  | executeRejected h => exact ⟨_, runExecute_outside s' h, rfl, rfl⟩
  | executed o a b c => exact ⟨_, runExecute_fld o a b c s', rfl, rfl⟩
  | replaceRejected hl => exact ⟨_, runReplaceAll_wrong_length s' hl, rfl, rfl⟩
  | replaced _ hf => exact ⟨_, runReplaceAll_of_ofValues s' hf, rfl, rfl⟩

/-- Settles O20: both steps serve the same operation on the same registers. -/
theorem stepDependsOnlyOnOperationAndRegisters : Obligations.StepDependsOnlyOnOperationAndRegisters := by
  intro s s' cmd rest rest' hp hp' hr
  obtain ⟨t, ht, hserved⟩ := runCommand_served cmd { s with pending := rest }
  obtain ⟨t', ht', hsame⟩ := hserved.same_on_same_regs (s' := { s' with pending := rest' }) hr
  exact ⟨t, t', (step_cons hp).trans ht, (step_cons hp').trans ht', hsame⟩

end Machine

end Sys2Proof

/-! SUPPORT. The instructions that write field C, each by its row of the opcode map and its ALU function, the result an
instruction returns, and the ALU functions on two's-complement numbers; then the statements on ADD, SUB and MUL. -/

namespace Sys2Proof

/-- The packed word of an instruction with the fields of three indices (30_encoding.md R52, decision D3). -/
theorem encode_toNat {i : Instr} {a b c : Fin 16} (ha : i.fieldA = fld a) (hb : i.fieldB = fld b)
    (hc : i.fieldC = fld c) : (encode i).toNat = i.opcode * 4096 + a.val * 256 + b.val * 16 + c.val := by
  have hop : (unpackWord (encode i)).op.toNat = i.opcode := by
    rw [unpackWord_encode, ← instrOfOpcode_opcode _ i.fieldA i.fieldB i.fieldC, instrOfOpcode_self]
  obtain ⟨h3, h2, h1, h0⟩ := unpackWord_toNat (encode i)
  rw [hop] at h3
  simp only [unpackWord_encode, ha, hb, hc, Machine.ofNat_fld, BitVec.toNat_ofFin] at h2 h1 h0
  omega

namespace Machine

/-! ### The instructions that write field C -/

/-- A row of the opcode map whose class writes field C with the value `f` of its two sources is what `WritesFieldC`
says: the datapath serves fields in range and rejects any other (40_execute.md R71 to R81). -/
theorem writesFieldC_of_row {instr : Int → Int → Int → Instr} (op : BitVec 4) {f : Word → Word → Word}
    (hrow : ∀ a b c, instr a b c = instrOfOpcode op a b c) (hi : decodeClass op ≠ .invalid)
    (hl : decodeClass op ≠ .loadImmediate) (hf : ∀ x y b, resultMux (decodeClass op) x y b = f x y) :
    WritesFieldC instr op.toNat fun x y z => z = f x y := by
  refine ⟨fun a b c => ?_, fun a b c s => ⟨_, rfl, ?_⟩, fun a b c h s => ?_⟩
  · rw [hrow, encode_toNat (instrOfOpcode_fieldA ..) (instrOfOpcode_fieldB ..) (instrOfOpcode_fieldC ..),
      instrOfOpcode_opcode]
  · rw [hrow, exec_fld (instrOfOpcode_fieldA ..) (instrOfOpcode_fieldB ..) (instrOfOpcode_fieldC ..),
      instrOfOpcode_cls, regsAfter_fieldC hi hl, hf]
  · rw [hrow, exec_eq_runDatapath, instrOfOpcode_fieldA, instrOfOpcode_fieldB, instrOfOpcode_fieldC]
    exact runDatapath_rejects _ s h

/-- What is true of the result may be said of it in place of its definition. -/
theorem WritesFieldC.mono {instr : Int → Int → Int → Instr} {code : Nat} {p q : Word → Word → Word → Prop}
    (h : WritesFieldC instr code p) (hpq : ∀ x y z, p x y z → q x y z) : WritesFieldC instr code q := by
  obtain ⟨hword, hserves, hrejects⟩ := h
  refine ⟨hword, fun a b c s => ?_, hrejects⟩
  obtain ⟨z, hz, he⟩ := hserves a b c s
  exact ⟨z, hpq _ _ _ hz, he⟩

theorem writesFieldC_add : WritesFieldC .add 0 fun x y z => z = aluAdd x y :=
  writesFieldC_of_row 0 (fun _ _ _ => rfl) (by decide) (by decide) fun _ _ _ => rfl

theorem writesFieldC_sub : WritesFieldC .sub 1 fun x y z => z = aluSub x y :=
  writesFieldC_of_row 1 (fun _ _ _ => rfl) (by decide) (by decide) fun _ _ _ => rfl

theorem writesFieldC_mul : WritesFieldC .mul 2 fun x y z => z = aluMul x y :=
  writesFieldC_of_row 2 (fun _ _ _ => rfl) (by decide) (by decide) fun _ _ _ => rfl

theorem writesFieldC_not : WritesFieldC .not 6 fun x _ z => z = aluNot x :=
  writesFieldC_of_row 6 (fun _ _ _ => rfl) (by decide) (by decide) fun _ _ _ => rfl

/-- Settles O21: the row of ADD, its result read as a number. -/
theorem addGivesTheSumModulo65536 : Obligations.AddGivesTheSumModulo65536 :=
  writesFieldC_add.mono fun x y _ hz => hz ▸ aluAdd_toNat x y

/-- Settles O22: the row of SUB, its result read as a number. -/
theorem subGivesTheDifferenceModulo65536 : Obligations.SubGivesTheDifferenceModulo65536 :=
  writesFieldC_sub.mono fun x y _ hz => hz ▸ aluSub_toNat x y

/-- Settles O23: the row of MUL, its result read as a number. -/
theorem mulGivesTheProductModulo65536 : Obligations.MulGivesTheProductModulo65536 :=
  writesFieldC_mul.mono fun x y _ hz => hz ▸ aluMul_toNat x y

/-! ### Two's complement -/

/-- An instruction with the fields of three indices returns the output of the result multiplexer (40_execute.md R81). -/
theorem resultOf_fld {i : Instr} {a b c : Fin 16} (ha : i.fieldA = fld a) (hb : i.fieldB = fld b)
    (hc : i.fieldC = fld c) (s : State) :
    resultOf i s = some (resultMux i.cls s.regs[a] s.regs[b] (fld b)) := by
  simp only [resultOf, exec_fld ha hb hc s, result_executed]

theorem aluAdd_toInt (x y : Word) : (aluAdd x y).toInt = (x.toInt + y.toInt).bmod 65536 := by
  rw [aluAdd_eq]
  exact BitVec.toInt_add x y

theorem aluSub_toInt (x y : Word) : (aluSub x y).toInt = (x.toInt - y.toInt).bmod 65536 := by
  rw [aluSub_eq]
  exact BitVec.toInt_sub

theorem aluMul_toInt (x y : Word) : (aluMul x y).toInt = (x.toInt * y.toInt).bmod 65536 := by
  rw [aluMul_eq]
  exact BitVec.toInt_mul x y

/-- Settles O31: each result is that of the ALU function, which commutes with the two's-complement reading. -/
theorem arithmeticAgreesWithTwosComplement : Obligations.ArithmeticAgreesWithTwosComplement :=
  fun _ _ _ s =>
    ⟨⟨_, resultOf_fld rfl rfl rfl s, aluAdd_toInt _ _⟩, ⟨_, resultOf_fld rfl rfl rfl s, aluSub_toInt _ _⟩,
      ⟨_, resultOf_fld rfl rfl rfl s, aluMul_toInt _ _⟩⟩

/-! ### Algebra -/

/-- The state `computed` runs an instruction in (95_test_vectors.md section 2). -/
def operandState (x y : Word) : State :=
  { State.reset with regs := (State.reset.regs.set 0 x).set 1 y }

theorem operandState_get_zero (x y : Word) : (operandState x y).regs[(0 : Fin 16)] = x := rfl

theorem operandState_get_one (x y : Word) : (operandState x y).regs[(1 : Fin 16)] = y := rfl

/-- `computed` reads r2 after the instruction. -/
theorem computed_of_exec {instr : Int → Int → Int → Instr} {x y : Word} {t : State}
    (h : exec (instr (fld 0) (fld 1) (fld 2)) (operandState x y) = .next t) :
    computed instr x y = some t.regs[(2 : Fin 16)] := by
  have h' : exec (instr 0 1 2) { State.reset with regs := (State.reset.regs.set 0 x).set 1 y } = .next t := h
  rw [computed, h']
  rfl

/-- An instruction that writes `f` of its two sources to field C computes `f`. -/
theorem WritesFieldC.computed_eq {instr : Int → Int → Int → Instr} {code : Nat} {f : Word → Word → Word}
    (h : WritesFieldC instr code fun x y z => z = f x y) (x y : Word) : computed instr x y = some (f x y) := by
  obtain ⟨-, hserves, -⟩ := h
  obtain ⟨z, hz, he⟩ := hserves 0 1 2 (operandState x y)
  rw [computed_of_exec he, get_set_same, hz, operandState_get_zero, operandState_get_one]

/-- Settles O32: the instructions compute the ALU's functions, and those are the ring operations of 16-bit words. -/
theorem arithmeticAlgebraModulo65536 : Obligations.ArithmeticAlgebraModulo65536 := by
  refine ⟨aluAdd, aluSub, aluMul, fun x _ => aluNot x,
    fun x y => ⟨writesFieldC_add.computed_eq x y, writesFieldC_sub.computed_eq x y, writesFieldC_mul.computed_eq x y,
      writesFieldC_not.computed_eq x y⟩, ?_⟩
  simp only [aluAdd_eq, aluSub_eq, aluMul_eq, aluNot]
  refine ⟨fun x y => ⟨BitVec.add_comm x y, BitVec.mul_comm x y⟩,
    fun x y w => ⟨BitVec.add_assoc x y w, BitVec.mul_assoc x y w, BitVec.mul_add⟩, fun x => ?_, fun x y => ?_⟩
  · have hnot : x + ~~~x = BitVec.allOnes 16 := BitVec.add_not_self x
    refine ⟨BitVec.add_zero x, BitVec.mul_one x, BitVec.sub_self x, by rw [hnot]; rfl, ?_⟩
    exact (BitVec.zero_sub x).trans (BitVec.neg_eq_not_add x)
  · exact (BitVec.sub_eq_add_neg x y).trans (congrArg (x + ·) (BitVec.zero_sub y).symm)

end Machine

end Sys2Proof

/-! SUPPORT. The rows of AND, OR and XOR, their results bit by bit, and the sum by its carries; then the statements on
the logical instructions. -/

namespace Sys2Proof.Machine

/-! ### AND, OR, XOR and NOT -/

theorem writesFieldC_and : WritesFieldC .and 3 fun x y z => z = aluAnd x y :=
  writesFieldC_of_row 3 (fun _ _ _ => rfl) (by decide) (by decide) fun _ _ _ => rfl

theorem writesFieldC_or : WritesFieldC .or 4 fun x y z => z = aluOr x y :=
  writesFieldC_of_row 4 (fun _ _ _ => rfl) (by decide) (by decide) fun _ _ _ => rfl

theorem writesFieldC_xor : WritesFieldC .xor 5 fun x y z => z = aluXor x y :=
  writesFieldC_of_row 5 (fun _ _ _ => rfl) (by decide) (by decide) fun _ _ _ => rfl

theorem aluAnd_testBit (x y : Word) (i : Nat) :
    (aluAnd x y).toNat.testBit i = (x.toNat.testBit i && y.toNat.testBit i) := by
  rw [aluAnd, BitVec.toNat_and, Nat.testBit_and]

theorem aluOr_testBit (x y : Word) (i : Nat) :
    (aluOr x y).toNat.testBit i = (x.toNat.testBit i || y.toNat.testBit i) := by
  rw [aluOr, BitVec.toNat_or, Nat.testBit_or]

theorem aluXor_testBit (x y : Word) (i : Nat) :
    (aluXor x y).toNat.testBit i = (x.toNat.testBit i != y.toNat.testBit i) := by
  rw [aluXor, BitVec.toNat_xor, Nat.testBit_xor]

/-- Settles O24: the row of AND, its result read bit by bit. -/
theorem andGivesTheBitwiseAnd : Obligations.AndGivesTheBitwiseAnd :=
  writesFieldC_and.mono fun x y _ hz => hz ▸ aluAnd_testBit x y

/-- Settles O25: the row of OR, its result read bit by bit. -/
theorem orGivesTheBitwiseOr : Obligations.OrGivesTheBitwiseOr :=
  writesFieldC_or.mono fun x y _ hz => hz ▸ aluOr_testBit x y

/-- Settles O26: the row of XOR, its result read bit by bit. -/
theorem xorGivesTheBitwiseExclusiveOr : Obligations.XorGivesTheBitwiseExclusiveOr :=
  writesFieldC_xor.mono fun x y _ hz => hz ▸ aluXor_testBit x y

/-- Settles O27: the row of NOT, its result read as a number; field B plays no part in it. -/
theorem notGivesTheComplement : Obligations.NotGivesTheComplement :=
  writesFieldC_not.mono fun x _ _ hz => hz ▸ aluNot_toNat x

/-! ### Algebra -/

/-- The exclusive OR is the sum without carries, and the AND holds the carries, each due one place higher. -/
theorem nat_add_eq_xor_add_and_mul_two (x y : Nat) : x + y = (x ^^^ y) + (x &&& y) * 2 := by
  induction x using Nat.div2Induction generalizing y with
  | ind x ih =>
    rcases Nat.eq_zero_or_pos x with rfl | hx
    · simp
    have hhigh : x / 2 + y / 2 = (x ^^^ y) / 2 + (x &&& y) / 2 * 2 := by
      rw [Nat.xor_div_two, Nat.and_div_two]
      exact ih hx (y / 2)
    have hxor : (x ^^^ y) % 2 = (x + y) % 2 := Nat.xor_mod_two_eq
    have hand : (x &&& y) % 2 = 1 ↔ x % 2 = 1 ∧ y % 2 = 1 := Nat.and_mod_two_eq_one
    omega

theorem aluAdd_eq_xor_add_and_mul_two (x y : Word) :
    aluAdd x y = aluAdd (aluXor x y) (aluMul (aluAnd x y) 2) := by
  rw [aluAdd_eq, aluAdd_eq, aluMul_eq]
  apply BitVec.eq_of_toNat_eq
  rw [BitVec.toNat_add, nat_add_eq_xor_add_and_mul_two]
  simp [aluXor, aluAnd]

/-- Settles O33: the instructions compute the ALU's functions, and those are the bitwise operations of 16-bit words. -/
theorem bitwiseAlgebra : Obligations.BitwiseAlgebra := by
  refine ⟨aluAnd, aluOr, aluXor, fun x _ => aluNot x, aluAdd, aluMul, fun x y =>
    ⟨writesFieldC_and.computed_eq x y, writesFieldC_or.computed_eq x y, writesFieldC_xor.computed_eq x y,
      writesFieldC_not.computed_eq x y, writesFieldC_add.computed_eq x y, writesFieldC_mul.computed_eq x y⟩,
    fun x y => ⟨BitVec.and_comm x y, BitVec.or_comm x y, BitVec.xor_comm x y⟩,
    fun x y w => ⟨BitVec.and_assoc x y w, BitVec.or_assoc x y w, BitVec.xor_assoc x y w⟩,
    fun x => ⟨BitVec.not_not, BitVec.xor_self, BitVec.xor_allOnes⟩,
    fun x y => ⟨BitVec.not_and, aluAdd_eq_xor_add_and_mul_two x y⟩⟩

end Sys2Proof.Machine

/-! SUPPORT. The statement on LOAD_IMMEDIATE, by the rules of a well-formed instruction and of a rejected one. -/

namespace Sys2Proof.Machine

/-- LOAD_IMMEDIATE with fields in range: the immediate is its result and the new value of field A's register
(43_load_immediate.md R110). -/
theorem exec_loadImmediate_fld (a b c : Fin 16) (s : State) :
    exec (.loadImmediate (fld a) (fld b) (fld c)) s =
      .next { s with
        regs := s.regs.set a (immediate (fld b))
        response := .executed (immediate (fld b)) (s.regs.set a (immediate (fld b))) } :=
  exec_fld rfl rfl rfl s

/-- Settles O28: the word's nibbles are the fields, the write of field A keeps every other register, field C's included,
and validation covers field C although nothing reads it. -/
theorem loadImmediateLoadsFieldBIntoFieldA : Obligations.LoadImmediateLoadsFieldBIntoFieldA := by
  refine ⟨fun a b c => encode_toNat rfl rfl rfl, fun a b c s => ?_, fun a b c h s => runDatapath_rejects _ s h⟩
  exact ⟨immediate (fld b), immediate_fld_toNat b, exec_loadImmediate_fld a b c s, get_set_other s.regs _⟩

end Sys2Proof.Machine

/-! SUPPORT. The eight INVALID instructions as rows of the opcode map, and the register file an instruction with a
destination leaves; then the statements on INVALID. -/

namespace Sys2Proof

/-! ### The rows of INVALID -/

/-- The opcodes of INVALID, 0111 to 1110 (30_encoding.md R56). -/
def invalidOpcodes : List (BitVec 4) := [7, 8, 9, 10, 11, 12, 13, 14]

theorem invalidInstrs_eq_map (a b c : Int) :
    invalidInstrs a b c = invalidOpcodes.map fun op => instrOfOpcode op a b c := rfl

theorem decodeClass_of_mem_invalidOpcodes : ∀ op ∈ invalidOpcodes, decodeClass op = .invalid := by decide

/-- An INVALID instruction of the fields A, B, C is of class INVALID and has these fields. -/
theorem cls_fields_of_mem_invalidInstrs {i : Instr} {a b c : Int} (h : i ∈ invalidInstrs a b c) :
    i.cls = .invalid ∧ i.fieldA = a ∧ i.fieldB = b ∧ i.fieldC = c := by
  rw [invalidInstrs_eq_map] at h
  obtain ⟨op, hop, rfl⟩ := List.mem_map.1 h
  exact ⟨(instrOfOpcode_cls ..).trans (decodeClass_of_mem_invalidOpcodes op hop), instrOfOpcode_fieldA ..,
    instrOfOpcode_fieldB .., instrOfOpcode_fieldC ..⟩

theorem encode_instrOfOpcode_toNat (op : BitVec 4) (a b c : Fin 16) :
    (encode (instrOfOpcode op (fld a) (fld b) (fld c))).toNat =
      op.toNat * 4096 + a.val * 256 + b.val * 16 + c.val := by
  rw [encode_toNat (instrOfOpcode_fieldA ..) (instrOfOpcode_fieldB ..) (instrOfOpcode_fieldC ..),
    instrOfOpcode_opcode]

namespace Machine

/-- INVALID with fields in range: the result is 0 and nothing is written (44_invalid.md R120, R121). -/
theorem exec_of_mem_invalidInstrs {i : Instr} {a b c : Fin 16} (h : i ∈ invalidInstrs (fld a) (fld b) (fld c))
    (s : State) : exec i s = .next { s with response := .executed 0 s.regs } := by
  obtain ⟨hcls, ha, hb, hc⟩ := cls_fields_of_mem_invalidInstrs h
  rw [exec_fld ha hb hc, hcls]
  rfl

/-- Settles O29: each INVALID instruction is a row of the opcode map, so its word has the row's opcode, and its class
selects the result 0 and no write; validation rejects a field out of range whatever the class. -/
theorem invalidOpcodesReturnZeroAndWriteNothing : Obligations.InvalidOpcodesReturnZeroAndWriteNothing := by
  refine ⟨fun a b c => ?_, fun a b c s i hi => exec_of_mem_invalidInstrs hi s, fun a b c h s i hi => ?_⟩
  · simp only [invalidInstrs_eq_map, List.map_map, Function.comp_def, encode_instrOfOpcode_toNat]
    rfl
  · obtain ⟨-, rfl, rfl, rfl⟩ := cls_fields_of_mem_invalidInstrs hi
    rw [exec_eq_runDatapath]
    exact runDatapath_rejects _ s h

/-! ### The write of a recognised instruction -/

theorem set_eq_self_iff (f : RegFile) (k : Fin 16) (w : Word) : f.set k w = f ↔ f[k] = w := by
  constructor
  · intro h
    rw [← h, get_set_same]
  · rintro rfl
    exact Vector.set_getElem_self k.isLt

/-- An instruction that answers the result `z` leaves the register file with `z` written to its destination
(40_execute.md R79, R81, R82). -/
theorem regs_of_exec_result {i : Instr} {s u : State} {d : Fin 16} {z : Word} (hd : i.destination = some (fld d))
    (hu : exec i s = .next u) (hz : u.response.result = some z) : u.regs = s.regs.set d z := by
  obtain ⟨-, e⟩ | ⟨a, b, c, ha, hb, hc, e⟩ := exec_cases i s <;>
    obtain rfl := Host.Outcome.next.inj (e.symm.trans hu)
  · nomatch hz
  · obtain rfl : resultMux i.cls s.regs[a] s.regs[b] (fld b) = z := Option.some.inj hz
    refine Vector.ext fun n hn => ?_
    by_cases hk : (⟨n, hn⟩ : Fin 16) = d
    · subst hk
      exact (regsAfter_get_of_destination ha hc hd b s.regs).trans (get_set_same ..).symm
    · refine (regsAfter_get_of_not_destination (k := ⟨n, hn⟩) ha hc (fun hdk => hk ?_) b s.regs).trans
        (get_set_other s.regs _ hk).symm
      exact fld_injective (Option.some.inj (hdk.symm.trans hd))

/-- Settles O30: INVALID keeps the register file and the other instruction writes 0 to its destination, which is no
change exactly when the destination held 0. -/
theorem invalidIsToldApartOnlyByNonZeroDestination : Obligations.InvalidIsToldApartOnlyByNonZeroDestination := by
  intro a b c d s u j hd hu hz i hi
  refine ⟨_, exec_of_mem_invalidInstrs hi s, hz.symm, ?_⟩
  rw [regs_of_exec_result hd hu hz, ne_comm, Ne, set_eq_self_iff]

end Machine

end Sys2Proof

/-! SUPPORT. Rejections: which operations raise which error kind, the state a rejection leaves, and that a step does not
read the response of the step before it; then the statements on the exceptions. -/

namespace Sys2Proof.Machine

/-! ### The operations that raise an error kind -/

/-- The operation raises the error kind: the kind a step that serves it reports (`Served.rejected_iff`). -/
inductive Command.Raises : Command → ErrorKind → Prop where
  /-- a field outside [0,15] (60_exceptions.md R132) -/
  | execute {op a b c : Int} (h : ¬(FieldInRange op ∧ FieldInRange a ∧ FieldInRange b ∧ FieldInRange c)) :
      Raises (.execute op a b c) .invalidInstruction
  /-- other than 16 elements (60_exceptions.md R133) -/
  | replaceAll {values : List Nat} (h : values.length ≠ 16) : Raises (.replaceAll values) .invalidRegisterSet

/-- No operation raises OutOfRange (60_exceptions.md R134). -/
theorem Command.Raises.kind_cases {cmd : Command} {kind : ErrorKind} (h : cmd.Raises kind) :
    kind = .invalidInstruction ∨ kind = .invalidRegisterSet := by
  cases h with
  | execute => exact .inl rfl
  | replaceAll => exact .inr rfl

theorem Served.rejected_iff {s t : State} {cmd : Command} {kind : ErrorKind} (h : Served s cmd t) :
    t.response = .rejected kind ↔ cmd.Raises kind := by
  constructor
  · intro hr
    cases h with
    | executeRejected hout => cases hr; exact .execute hout
    | replaceRejected hl => cases hr; exact .replaceAll hl
    | idle | executed | replaced | snapshot | reset => nomatch hr
  · rintro (hout | hl)
    · cases h with
      | executeRejected => rfl
      | executed o a b c => exact absurd ⟨fld_inRange o, fld_inRange a, fld_inRange b, fld_inRange c⟩ hout
    · cases h with
      | replaceRejected => rfl
      | replaced h16 => exact absurd h16 hl

/-- A rejection is the next state `State.reject` and no other (60_exceptions.md R131). -/
theorem Served.eq_reject {s t : State} {cmd : Command} {kind : ErrorKind} (h : Served s cmd t)
    (hr : t.response = .rejected kind) : t = s.reject kind := by
  cases h with
  | executeRejected | replaceRejected => cases hr; rfl
  | idle | executed | replaced | snapshot | reset => nomatch hr

/-! ### A step that rejects its operation -/

/-- A step reports an error kind exactly when the operation presented to it raises that kind; a step with none presented
reports no error. -/
theorem step_rejected_iff {s t : State} {kind : ErrorKind} (h : step s = .next t) :
    t.response = .rejected kind ↔ ∃ cmd rest, s.pending = cmd :: rest ∧ cmd.Raises kind := by
  rw [(served_of_runCommand h).rejected_iff]
  cases hp : s.pending with
  | nil => rw [takeCommand_nil hp]; exact ⟨nofun, nofun⟩
  | cons cmd rest => simp [takeCommand_cons hp]

theorem step_eq_reject {s t : State} {kind : ErrorKind} (h : step s = .next t) (hr : t.response = .rejected kind) :
    t = s.takeCommand.2.reject kind :=
  (served_of_runCommand h).eq_reject hr

theorem step_rejected_regs {s t : State} {kind : ErrorKind} (h : step s = .next t)
    (hr : t.response = .rejected kind) : t.regs = s.regs := by
  rw [step_eq_reject h hr, reject_regs, takeCommand_regs]

/-- Settles O11: of the two operations that raise an error kind, an execute is the one that raises this kind. -/
theorem invalidInstructionOnlyFromValidation : Obligations.InvalidInstructionOnlyFromValidation := by
  refine fun s t h => ⟨(step_rejected_iff h).trans ⟨?_, ?_⟩, step_rejected_regs h⟩
  · rintro ⟨_, rest, hp, hraises⟩
    cases hraises with
    | execute hout => exact ⟨_, _, _, _, rest, hp, hout⟩
  · rintro ⟨op, a, b, c, rest, hp, hout⟩
    exact ⟨_, rest, hp, .execute hout⟩

/-- Settles O12: of the two operations that raise an error kind, a bulk replace is the one that raises this kind. -/
theorem invalidRegisterSetOnlyFromBulkReplace : Obligations.InvalidRegisterSetOnlyFromBulkReplace := by
  refine fun s t h => ⟨(step_rejected_iff h).trans ⟨?_, ?_⟩, step_rejected_regs h⟩
  · rintro ⟨_, rest, hp, hraises⟩
    cases hraises with
    | replaceAll hl => exact ⟨_, rest, hp, hl⟩
  · rintro ⟨values, rest, hp, hl⟩
    exact ⟨_, rest, hp, .replaceAll hl⟩

/-- Settles O40: the response is the rejection alone, and its kind is one an operation raises. -/
theorem rejectionLeavesThePriorState : Obligations.RejectionLeavesThePriorState := by
  intro s t kind h hr
  obtain ⟨_, _, -, hraises⟩ := (step_rejected_iff h).1 hr
  exact ⟨step_rejected_regs h hr, by rw [hr, result_rejected], by rw [hr, status_rejected], hraises.kind_cases⟩

/-! ### The step after a rejection -/

/-- No operation reads the outputs of the step before it (10_state.md R33). -/
theorem runCommand_set_response (cmd : Command) (s : State) (r : Response) :
    runCommand cmd { s with response := r } = runCommand cmd s := by
  obtain ⟨t, ht, hserved⟩ := runCommand_served cmd s
  obtain ⟨t', ht', hregs, hresponse⟩ := hserved.same_on_same_regs (s' := { s with response := r }) rfl
  have hpending : t.pending = t'.pending := hserved.pending.trans (served_of_runCommand ht').pending.symm
  have : t' = t := by
    cases t
    cases t'
    rw [State.mk.injEq]
    exact ⟨hregs.symm, hpending.symm, hresponse.symm⟩
  rw [ht, ht', this]

theorem step_reject (s : State) (kind : ErrorKind) : step (s.reject kind) = step s := by
  cases hp : s.pending with
  | nil => exact (step_nil (s := s.reject kind) hp).trans (step_nil hp).symm
  | cons cmd rest =>
    rw [step_cons hp, step_cons (s := s.reject kind) hp]
    exact runCommand_set_response cmd { s with pending := rest } _

/-- Settles O41: a rejection changes only the response beside taking its operation, and no step reads the response. -/
theorem rejectedOperationLeavesNoTrace : Obligations.RejectedOperationLeavesNoTrace := by
  intro s t cmd rest kind hp h hr
  rw [step_eq_reject h hr, takeCommand_cons hp, step_reject]

/-! ### Runs and status codes -/

/-- Settles O47, by induction on the number of steps: every step answers a next state, from which the run goes on. -/
theorem everyRunIsSafe : Obligations.EveryRunIsSafe := by
  intro n
  induction n with
  | zero => exact fun s => ⟨s, rfl⟩
  | succ n ih =>
    intro s
    obtain ⟨u, hu⟩ := step_answers s
    obtain ⟨t, ht⟩ := ih u
    exact ⟨t, (run_succ n hu).trans ht⟩

/-- Settles O42: the numbers of decision D11, read off the two tables. -/
theorem statusCodesAreNumbered : Obligations.StatusCodesAreNumbered :=
  ⟨rfl, rfl, rfl, rfl⟩

end Sys2Proof.Machine

/-! SUPPORT. The reset step, and the statement on reset. -/

namespace Sys2Proof.Machine

theorem step_reset {s : State} {rest : List Command} (h : s.pending = .reset :: rest) :
    step s = .next { regs := State.reset.regs, pending := rest, response := .none } :=
  step_cons h

/-- Settles O37: the reset step loads the registers of the reset state, which are all 0. -/
theorem resetClearsEveryRegister : Obligations.ResetClearsEveryRegister :=
  fun _ _ h => ⟨_, step_reset h, reset_get, rfl, rfl⟩

end Sys2Proof.Machine

/-! SUPPORT. The statement on the words written out for the 16 opcodes. -/

namespace Sys2Proof

/-- Settles O1: 16 closed facts, one for each row of the opcode map; the decoder is evaluated on each word. -/
theorem writtenOutWordsDecode : Obligations.WrittenOutWordsDecode := by
  unfold Obligations.WrittenOutWordsDecode
  decide

end Sys2Proof
